-- ==== Sys2Proof/Word.lean ====
section
/-! DEFINITION. The words the block is made of (spec/00_scope.md rules R4 and R6): nothing here but names for widths. -/

namespace Sys2Proof

/-- Eight bits: one HighLow field, one byte operand, one byte of a serialised word (R10, R63, R42). -/
abbrev Byte := BitVec 8

/-- `DW` = 32 bits: one pulse duration in microseconds (R4). -/
abbrev Duration := BitVec 32

/-- One command word `cmd[79:0]` (R60, R61). -/
abbrev CmdWord := BitVec 80

/-- The payload `pl = cmd[71:0]` of a command word, a packed Protocol record, or the response data (R61, R68, R75). -/
abbrev Payload := BitVec 72

end Sys2Proof
end

