-- ==== Sys2Proof/Machine/Record.lean ====
section
/-! DEFINITION. The two record types of spec/10_state.md (HighLow R10, Protocol R11), their packed forms (spec/30_encoding.md R68, R69), the validity of a record (spec/40_protocol_table.md R97) and the legality of a Protocol Table (spec/00_scope.md R5). -/

namespace Sys2Proof

/-- A HighLow: the number of base pulse lengths a signal stays high, then low, for one symbol (R10). -/
structure HighLow where
  high : Byte
  low  : Byte
  deriving DecidableEq, Repr

/-- A Protocol record (R11), the fields in the spec's order. -/
structure Protocol where
  pulseLength    : BitVec 16
  syncFactor     : HighLow
  zero           : HighLow
  one            : HighLow
  invertedSignal : Bool
  deriving DecidableEq, Repr

namespace Machine

/-- A HighLow in a packed record: `high` in the upper byte, `low` in the lower (R69). -/
def packHighLow (h : HighLow) : BitVec 16 := h.high ++ h.low

/-- The packed Protocol record `PREC`, most significant field first, bits 7:1 zero (R68). -/
def packProtocol (p : Protocol) : Payload :=
  p.pulseLength ++ packHighLow p.syncFactor ++ packHighLow p.zero ++ packHighLow p.one ++ 0#7
    ++ BitVec.ofBool p.invertedSignal

/-- The HighLow whose packed form stands at bits `lo+15 : lo` of a record (R69). -/
def unpackHighLow (prec : Payload) (lo : Nat) : HighLow :=
  { high := prec.extractLsb' (lo + 8) 8, low := prec.extractLsb' lo 8 }

/-- The Protocol a 72-bit payload spells; bits 7:1 are not read (R68, R94). -/
def unpackProtocol (prec : Payload) : Protocol :=
  { pulseLength    := prec.extractLsb' 56 16
    syncFactor     := unpackHighLow prec 40
    zero           := unpackHighLow prec 24
    one            := unpackHighLow prec 8
    invertedSignal := prec.getLsbD 0 }

/-- The reserved bits 7:1 of a packed Protocol record (R68, R72). -/
def precReserved (prec : Payload) : BitVec 7 := prec.extractLsb' 1 7

/-- Both fields of a HighLow are positive (R10). -/
def validHighLow (h : HighLow) : Bool := decide (1 ≤ h.high.toNat) && decide (1 ≤ h.low.toNat)

/-- `ValidProtocol(P)`: every one of the seven numeric fields is at least 1 (R97). -/
def validProtocol (p : Protocol) : Bool :=
  decide (1 ≤ p.pulseLength.toNat) && validHighLow p.syncFactor && validHighLow p.zero && validHighLow p.one

/-- A legal `PROTO_TABLE`: `1 <= N <= 255` records (R4), each satisfying the Protocol invariant (R5). -/
def legalTable (t : List Protocol) : Bool :=
  decide (1 ≤ t.length) && decide (t.length ≤ 255) && t.all validProtocol

end Machine
end Sys2Proof
end

