-- ==== Sys2Proof/Syntax.lean ====
section
/-! DEFINITION. The commands of the block: one constructor per row of spec/opcode_table.json (spec/30_encoding.md rule R70), the operands as rules R62 to R68 give them. -/

namespace Sys2Proof

/-- The 21 commands, in the order of rule R70. Every operand is an unsigned field used as it stands (R77). -/
inductive Instr where
  /-- `NOP` (R91). -/
  | nop
  /-- `PROTOAT id` (R92). -/
  | protoat (id : Byte)
  /-- `SETPROTO id` (R93). -/
  | setproto (id : Byte)
  /-- `SETPROTOF P`, the operand as its 72-bit packed record (R68, R94). -/
  | setprotof (prec : Payload)
  /-- `SETPULSE pl16` (R95). -/
  | setpulse (pl16 : BitVec 16)
  /-- `GETCUR` (R96). -/
  | getcur
  /-- `SETREP r` (R114). -/
  | setrep (r : Byte)
  /-- `ENCT w`: the number of symbols and the 32 symbol slots, the ignored ones too (R67, R115). -/
  | enct (nsym : Byte) (slots : BitVec 64)
  /-- `ENCB len, code` (R66, R116). -/
  | encb (len : Byte) (code : BitVec 32)
  /-- `SETTOL t` (R130). -/
  | settol (t : Byte)
  /-- `CAPCLR` (R131). -/
  | capclr
  /-- `CAPPUSH d` (R132). -/
  | cappush (d : Duration)
  /-- `DECODE` (R133). -/
  | decode
  /-- `AVAIL` (R170). -/
  | avail
  /-- `RSTAVAIL` (R171). -/
  | rstavail
  /-- `GETVAL` (R172). -/
  | getval
  /-- `GETLEN` (R173). -/
  | getlen
  /-- `GETDLY` (R174). -/
  | getdly
  /-- `GETPROTO` (R175). -/
  | getproto
  /-- `GETRAW idx` (R176). -/
  | getraw (idx : Byte)
  /-- `GETCFG` (R177). -/
  | getcfg
  deriving DecidableEq, Repr

end Sys2Proof
end

