-- ==== Sys2Proof/Decode.lean ====
section
/-! DEFINITION. Decoding a command word (spec/30_encoding.md rules R61 to R77), total on all 2^80 words, and after it the encoder, written from the same format rules. -/

namespace Sys2Proof

/-- Why a word spells no command. The block answers every one of them with the status `IllegalCommand`
(R71, R72); these are names for a reader, not states of the block. -/
inductive DecodeReject where
  /-- The opcode is not in the map of rule R70 (R71). -/
  | illegalOpcode (op : Byte)
  /-- The opcode is legal and a reserved bit of its format is 1 (R72). -/
  | reservedBits (op : Byte)
  /-- A serialised command word is ten bytes long, and this one is not (R42, R61). -/
  | wrongLength (bytes : Nat)
  deriving DecidableEq, Repr

/-- `op = cmd[79:72]` (R61). -/
def opField (w : CmdWord) : Byte := w.extractLsb' 72 8

/-- `pl = cmd[71:0]` (R61). -/
def plField (w : CmdWord) : Payload := w.extractLsb' 0 72

/-- The reserved bits `pl[71:k]` of a format whose operands fill the payload's low `k` bits are all zero
(R62 to R66, R72). -/
def reservedClear (k : Nat) (pl : Payload) : Bool := pl.extractLsb' k (72 - k) == 0

/-- The command if the format's reserved bits are clear, else the rejection of rule R72. -/
def whenClear (op : Byte) (clear : Bool) (i : Instr) : Except DecodeReject Instr :=
  if clear then .ok i else .error (.reservedBits op)

/-- Format Z: no operand, `pl[71:0]` reserved (R62). -/
def decodeZ (op : Byte) (pl : Payload) (i : Instr) : Except DecodeReject Instr :=
  whenClear op (reservedClear 0 pl) i

/-- Format B: `b8 = pl[7:0]` (R63). -/
def decodeB (op : Byte) (pl : Payload) (mk : Byte → Instr) : Except DecodeReject Instr :=
  whenClear op (reservedClear 8 pl) (mk (pl.extractLsb' 0 8))

/-- Format H: `h16 = pl[15:0]` (R64). -/
def decodeH (op : Byte) (pl : Payload) (mk : BitVec 16 → Instr) : Except DecodeReject Instr :=
  whenClear op (reservedClear 16 pl) (mk (pl.extractLsb' 0 16))

/-- Format W: `w32 = pl[31:0]` (R65). -/
def decodeW (op : Byte) (pl : Payload) (mk : BitVec 32 → Instr) : Except DecodeReject Instr :=
  whenClear op (reservedClear 32 pl) (mk (pl.extractLsb' 0 32))

/-- Format L: `len8 = pl[39:32]`, `code32 = pl[31:0]` (R66). -/
def decodeL (op : Byte) (pl : Payload) (mk : Byte → BitVec 32 → Instr) : Except DecodeReject Instr :=
  whenClear op (reservedClear 40 pl) (mk (pl.extractLsb' 32 8) (pl.extractLsb' 0 32))

/-- Format T: `nsym8 = pl[71:64]`, the 32 slots `pl[63:0]`; no reserved bit (R67). -/
def decodeT (pl : Payload) (mk : Byte → BitVec 64 → Instr) : Except DecodeReject Instr :=
  .ok (mk (pl.extractLsb' 64 8) (pl.extractLsb' 0 64))

/-- Format P: the payload is a packed Protocol record with bits 7:1 reserved (R68). -/
def decodeP (op : Byte) (pl : Payload) (mk : Payload → Instr) : Except DecodeReject Instr :=
  whenClear op (Machine.precReserved pl == 0) (mk pl)

/-- The opcode map of rule R70, each opcode with its format; the order of checks is that of rule R77. -/
def decodeFields (op : Byte) (pl : Payload) : Except DecodeReject Instr :=
  match op.toNat with
  | 0x00 => decodeZ op pl .nop
  | 0x10 => decodeB op pl .protoat
  | 0x11 => decodeB op pl .setproto
  | 0x12 => decodeP op pl .setprotof
  | 0x13 => decodeH op pl .setpulse
  | 0x14 => decodeZ op pl .getcur
  | 0x20 => decodeB op pl .setrep
  | 0x21 => decodeT pl .enct
  | 0x22 => decodeL op pl .encb
  | 0x30 => decodeB op pl .settol
  | 0x31 => decodeZ op pl .capclr
  | 0x32 => decodeW op pl .cappush
  | 0x33 => decodeZ op pl .decode
  | 0x40 => decodeZ op pl .avail
  | 0x41 => decodeZ op pl .rstavail
  | 0x42 => decodeZ op pl .getval
  | 0x43 => decodeZ op pl .getlen
  | 0x44 => decodeZ op pl .getdly
  | 0x45 => decodeZ op pl .getproto
  | 0x46 => decodeB op pl .getraw
  | 0x47 => decodeZ op pl .getcfg
  | _    => .error (.illegalOpcode op)

/-- Decoding a command word: opcode, reserved bits, operands (R77 steps 1 to 3). -/
def decode (w : CmdWord) : Except DecodeReject Instr := decodeFields (opField w) (plField w)

/-- The value of a list of bytes, most significant byte first (R42). -/
def bytesValue (bs : List Byte) : Nat := bs.foldl (fun acc b => 256 * acc + b.toNat) 0

/-- A command word carried over a byte-wide link: ten bytes, the opcode first (R42). -/
def wordOfBytes (bs : List Byte) : Except DecodeReject CmdWord :=
  if bs.length = 10 then .ok (BitVec.ofNat 80 (bytesValue bs)) else .error (.wrongLength bs.length)

/-- Decoding from serialised bytes, total on every list of bytes (R42, R77). -/
def decodeBytes (bs : List Byte) : Except DecodeReject Instr := (wordOfBytes bs).bind decode

/-- The bytes of a `w`-bit value of `n` bytes, most significant first: how a platform carries the command word
(`n` = 10) or the response data (`n` = 9) over a narrower link (R42). -/
def bytesOf {w : Nat} (n : Nat) (v : BitVec w) : List Byte :=
  (List.range n).map fun k => v.extractLsb' (8 * (n - 1 - k)) 8

/-- The command word whose bits the opcode table numbers: the low `nbits` bits of `w`, every bit above them zero. -/
def tableWord (nbits w : Nat) : CmdWord := BitVec.ofNat 80 (w % 2 ^ nbits)

/-- What the decoder reads from the instruction whose bits are `w` (one 80-bit word per command, R61). -/
def decodeTableWord (nbits w : Nat) : Option Instr := (decode (tableWord nbits w)).toOption

/-! The encoder. -/

/-- A command word from its two top-level fields (R61). -/
def cmdWord (op : Byte) (pl : Payload) : CmdWord := op ++ pl

/-- Format Z (R62). -/
def payloadZ : Payload := 0
/-- Format B (R63). -/
def payloadB (b8 : Byte) : Payload := 0#64 ++ b8
/-- Format H (R64). -/
def payloadH (h16 : BitVec 16) : Payload := 0#56 ++ h16
/-- Format W (R65). -/
def payloadW (w32 : BitVec 32) : Payload := 0#40 ++ w32
/-- Format L (R66). -/
def payloadL (len8 : Byte) (code32 : BitVec 32) : Payload := 0#32 ++ len8 ++ code32
/-- Format T (R67). -/
def payloadT (nsym8 : Byte) (slots : BitVec 64) : Payload := nsym8 ++ slots

/-- The opcode of a command (R70). -/
def Instr.opcode : Instr → Byte
  | .nop => 0x00
  | .protoat _ => 0x10
  | .setproto _ => 0x11
  | .setprotof _ => 0x12
  | .setpulse _ => 0x13
  | .getcur => 0x14
  | .setrep _ => 0x20
  | .enct _ _ => 0x21
  | .encb _ _ => 0x22
  | .settol _ => 0x30
  | .capclr => 0x31
  | .cappush _ => 0x32
  | .decode => 0x33
  | .avail => 0x40
  | .rstavail => 0x41
  | .getval => 0x42
  | .getlen => 0x43
  | .getdly => 0x44
  | .getproto => 0x45
  | .getraw _ => 0x46
  | .getcfg => 0x47

/-- The payload of a command, by its format (R62 to R68, R70). -/
def Instr.payload : Instr → Payload
  | .nop => payloadZ
  | .protoat id => payloadB id
  | .setproto id => payloadB id
  | .setprotof prec => prec
  | .setpulse pl16 => payloadH pl16
  | .getcur => payloadZ
  | .setrep r => payloadB r
  | .enct nsym slots => payloadT nsym slots
  | .encb len code => payloadL len code
  | .settol t => payloadB t
  | .capclr => payloadZ
  | .cappush d => payloadW d
  | .decode => payloadZ
  | .avail => payloadZ
  | .rstavail => payloadZ
  | .getval => payloadZ
  | .getlen => payloadZ
  | .getdly => payloadZ
  | .getproto => payloadZ
  | .getraw idx => payloadB idx
  | .getcfg => payloadZ

/-- The command word of a command. -/
def encode (i : Instr) : CmdWord := cmdWord i.opcode i.payload

end Sys2Proof
end

