-- ==== Sys2Proof/Config.lean ====
section
/-! DEFINITION. The implementation parameters of spec/00_scope.md rule R4, and the model's free values. -/

namespace Sys2Proof

/-- A Protocol Table that satisfies rule R5. The default values only show that such a table exists; they are
no claim about any table. -/
structure ProtoTable where
  records : List Protocol := [⟨1, ⟨1, 1⟩, ⟨1, 1⟩, ⟨1, 1⟩, false⟩]
  legal   : Machine.legalTable records = true := by decide
  deriving Inhabited

namespace Config

/-- `PROTO_TABLE` with its `N`, left OPEN by the spec (R4, R12; 92_eei_decisions.md D5; 93_implementation_defined.md
U1, treatment `parameter`): some legal table, of which nothing more can be proved.
DESIGN CHOICE of form (notes/assumptions/1.md), safe. -/
opaque protoTable : ProtoTable

/-- How many entries of an abandoned transmit stream were already delivered when `rst` rose: the spec allows any
(93_implementation_defined.md U14). One value for each use, numbered by `State.freeCtr`
(notes/assumptions/7.md), safe. -/
opaque freePrefix : Nat → Nat

/-- `MAXCHG`: entries of `CAP` and of `RAW` (R4). -/
abbrev maxChg : Nat := 67
/-- `MINCHG`: fewest level changes the decoder accepts (R4, R141). -/
abbrev minChg : Nat := 7
/-- `MAXBITS`: widest code word and widest decoded value (R4, R113). -/
abbrev maxBits : Nat := 32
/-- `TOL_MAX`: largest tolerance (R4, R15). -/
abbrev tolMax : Nat := 99
/-- `TOL_DEFAULT`: tolerance after reset (R4, R15). -/
abbrev tolDefault : Byte := 20
/-- `REPEAT_DEFAULT`: repeat count after reset (R4, R14). -/
abbrev repeatDefault : Byte := 10

end Config
end Sys2Proof
end

