-- ==== Sys2Proof/Machine/State.lean ====
section
/-! DEFINITION. The state of the block (spec/10_state.md, the register table of rule R26), the ports a host sees (spec/30_encoding.md rules R60, R75, R76), the state after reset (R29, R221), and the two ways a step of the model could stop. -/

namespace Sys2Proof.Machine

/-- The status of a response (R74). Codes 6 to 15 are never produced, so they have no constructor. -/
inductive Status where
  /-- Code 0: the command completed. -/
  | ok
  /-- Code 1: protocol id, record or pulse length out of range (R191). -/
  | invalidProtocol
  /-- Code 2: malformed code word (R192). -/
  | invalidCodeWord
  /-- Code 3: more than 67 entries were pushed (R193). -/
  | captureOverflow
  /-- Code 4: an operand outside its legal range (R195). -/
  | invalidArgument
  /-- Code 5: the word spells no command (R196). -/
  | illegalCommand
  deriving DecidableEq, Repr

/-- One response: `rsp_status` and `rsp_data[71:0]` (R75). -/
structure Response where
  status : Status
  data   : Payload
  deriving DecidableEq, Repr

/-- One word on the transmit stream: `tx_data[31:0]` and `tx_last` (R76). -/
structure TxBeat where
  data : Duration
  last : Bool
  deriving DecidableEq, Repr

/-- What the host does at the block's inputs, one event for each step of the model (R60, R204, R220). -/
inductive PortInput where
  /-- A command word is presented and taken, and no reset falls in its execution. -/
  | command (w : CmdWord)
  /-- `rst` is asserted while the block executes no command. -/
  | reset
  /-- A command word is presented and taken, and `rst` rises while it executes (R220). -/
  | resetDuring (w : CmdWord)
  deriving DecidableEq, Repr

/-- The state: every register of rule R26, then the ports, then the model's own counter of free values. -/
structure State where
  /-- `PROTO[1..N]`, in id order; never written (R12). -/
  proto     : List Protocol
  /-- `CURP` (R13). -/
  curp      : Protocol
  /-- `REPEAT` (R14). -/
  repeatCnt : Byte
  /-- `TOL` (R15). -/
  tol       : Byte
  /-- `CAP[0..66]` (R16). -/
  cap       : Vector Duration 67
  /-- `CAPCNT` (R16). -/
  capcnt    : BitVec 7
  /-- `CAPOVF` (R17). -/
  capovf    : Bool
  /-- `VALUE` (R18). -/
  value     : BitVec 32
  /-- `BITLEN` (R19). -/
  bitlen    : Byte
  /-- `PROTOID` (R20). -/
  protoid   : Byte
  /-- `DELAY` (R21). -/
  delay     : Duration
  /-- `RAW[0..66]` (R22). -/
  raw       : Vector Duration 67
  /-- `AVAIL`, and the level of the output `avail` (R24, R201). -/
  avail     : Bool
  /-- The command port and `rst`: what the host does from here on, in order, the next event first (R47, R60). -/
  inputs    : List PortInput
  /-- The response port in this step: `none` is `rsp_valid = 0` (R60, R75). -/
  rsp       : Option Response
  /-- The transmit stream of this step, in order; `[]` is `tx_valid = 0` throughout (R76). -/
  tx        : List TxBeat
  /-- The model's own: how many free values have been drawn (notes/assumptions/8.md). -/
  freeCtr   : Nat
  deriving DecidableEq, Repr

/-- Why a step would stop with a fault. There is no constructor, because nothing stops the block: it never halts
(R233), every word has an outcome (R77), and an error is a response after which it is ready again (R199). Safe: a
fault cannot hide a behaviour of the block. -/
inductive Fault where
  deriving DecidableEq, Repr

/-- Why a step would be refused. -/
inductive Refusal where
  /-- An instruction of the opcode table that has no meaning yet; raised by `exec` alone, by no arm of this model.
  Safe: no claim could be proved of the refused instruction. -/
  | notModelled (mnemonic : String)
  deriving DecidableEq, Repr

/-- The registers after a reset of a block whose Protocol Table is `t` (R29, R221), nothing at the ports. A legal table
has a first record; for the empty list, which is no table, `CURP` is the all-zero record. The entries of `CAP` are
unspecified and unreadable in the spec: zero is the model's (DESIGN CHOICE, notes/assumptions/3.md). -/
def State.resetWith (t : List Protocol) : State :=
  { proto     := t
    curp      := t.headD ⟨0, ⟨0, 0⟩, ⟨0, 0⟩, ⟨0, 0⟩, false⟩
    repeatCnt := Config.repeatDefault
    tol       := Config.tolDefault
    cap       := Vector.replicate 67 0
    capcnt    := 0
    capovf    := false
    value     := 0
    bitlen    := 0
    protoid   := 0
    delay     := 0
    raw       := Vector.replicate 67 0
    avail     := false
    inputs    := []
    rsp       := none
    tx        := []
    freeCtr   := 0 }

/-- The block right after reset, its Protocol Table the OPEN parameter (R29, R221, R4). -/
def State.reset : State := State.resetWith Config.protoTable.records

end Sys2Proof.Machine
end

