-- ==== Sys2Proof/Machine/Flags.lean ====
section
/-! DEFINITION. The block's two flags, `AVAIL` and `CAPOVF` (spec/10_state.md rules R17, R24, R25): their writers, and the status bits `GETCFG` reads. -/

namespace Sys2Proof.Machine

/-- `AVAIL <- 0` (R171, R24). -/
def clearAvail (s : State) : State := { s with avail := false }

/-- `CAPOVF <- 1` (R17, R132). -/
def setCapovf (s : State) : State := { s with capovf := true }

/-- The word `GETCFG` responds (R177): `REPEAT` in 7:0, `TOL` in 15:8, `CAPCNT` in 22:16, 0 in 23, `CAPOVF` in 24,
`AVAIL` in 25, 0 above. -/
def cfgWord (s : State) : Payload :=
  0#46 ++ BitVec.ofBool s.avail ++ BitVec.ofBool s.capovf ++ 0#1 ++ s.capcnt ++ s.tol ++ s.repeatCnt

end Sys2Proof.Machine
end

