-- ==== Sys2Proof/Machine/Ops.lean ====
section
/-! DEFINITION. The operations the meanings share: responding, raising an error, the transmit stream, the register writes, the capture buffer, the publish, reset, and the output pins. -/

namespace Sys2Proof.Machine

/-! Responses (spec/30_encoding.md rules R74 to R76). -/

/-- `rsp_status[3:0]` (R74). -/
def statusCode : Status → BitVec 4
  | .ok => 0
  | .invalidProtocol => 1
  | .invalidCodeWord => 2
  | .captureOverflow => 3
  | .invalidArgument => 4
  | .illegalCommand => 5

/-- `respond(d)`: status `OK`, data `d`, nothing on the transmit stream (R8, R75). -/
def respond (d : Payload) (s : State) : State := { s with rsp := some ⟨.ok, d⟩, tx := [] }

/-- `raise <Error>`: TAKING AN EXCEPTION on this block (R8, R199). The response is the error's status with data 0, and the
transmit stream stays idle. Nothing is saved, no mode changes, and there is nothing to return from (R200), so
this operation has no counterpart. -/
def raiseError (e : Status) (s : State) : State := { s with rsp := some ⟨e, 0⟩, tx := [] }

/-- The beats of a pulse sequence: one entry each, in order, `tx_last` on the final one (R76). -/
def beats : List Duration → List TxBeat
  | [] => []
  | [d] => [⟨d, true⟩]
  | d :: e :: rest => ⟨d, false⟩ :: beats (e :: rest)

/-- `respond_tx(seq)`: status `OK`, data `len(seq)`, and `seq` on the transmit stream (R8, R76). -/
def respondTx (seq : List Duration) (s : State) : State :=
  { s with rsp := some ⟨.ok, BitVec.ofNat 72 seq.length⟩, tx := beats seq }

/-! The Protocol Table and the argument registers. -/

/-- `protocolAt(id)`: the record `PROTO[id]` for `1 <= id <= N`, else the failure `InvalidProtocol` (R90). -/
def protocolAt (s : State) (id : Byte) : Option Protocol :=
  if id.toNat = 0 then none else s.proto[id.toNat - 1]?

/-- `CURP <- P` (R93, R94). -/
def setCurp (p : Protocol) (s : State) : State := { s with curp := p }

/-- `CURP.pulseLength <- pl16`, the other fields unchanged (R95). -/
def setCurpPulse (pl16 : BitVec 16) (s : State) : State := { s with curp := { s.curp with pulseLength := pl16 } }

/-- `REPEAT <- r` (R114). -/
def setRepeat (r : Byte) (s : State) : State := { s with repeatCnt := r }

/-- `TOL <- t` (R130). -/
def setTol (t : Byte) (s : State) : State := { s with tol := t }

/-! The capture buffer (spec/10_state.md rules R16, R17). -/

/-- `CAPCNT <- 0; CAPOVF <- 0` (R131). -/
def clearCapture (s : State) : State := { s with capcnt := 0, capovf := false }

/-- `CAP[CAPCNT] <- d; CAPCNT <- CAPCNT + 1` (R132). -/
def pushCapture (d : Duration) (s : State) : State :=
  { s with cap := s.cap.setIfInBounds s.capcnt.toNat d, capcnt := s.capcnt + 1 }

/-- The valid entries `CAP[0] .. CAP[CAPCNT-1]` (R16, R133). -/
def captured (s : State) : List Duration := s.cap.toList.take s.capcnt.toNat

/-! The Received-Result Holder (spec/10_state.md rules R18 to R22, R24). -/

/-- `Rotate(cap, n)`: the sync pair at indices 0 and 1, the data entries after it, zero from index `n` on (R143). -/
def rotate (cap : List Duration) (n : Nat) : Vector Duration 67 :=
  Vector.ofFn fun j : Fin 67 =>
    if n ≤ j.val then 0
    else if j.val = 0 then cap.getD (n - 2) 0
    else if j.val = 1 then cap.getD (n - 1) 0
    else cap.getD (j.val - 2) 0

/-- The publish: every Holder field and `AVAIL <- 1` in one step (R46, R133, R143). -/
def publish (value bits id delay : Nat) (raw : Vector Duration 67) (s : State) : State :=
  { s with
    value   := BitVec.ofNat 32 value
    bitlen  := BitVec.ofNat 8 bits
    protoid := BitVec.ofNat 8 id
    delay   := BitVec.ofNat 32 delay
    raw     := raw
    avail   := true }

/-- `RAW[idx]`; the command that reads it has checked the index (R176). -/
def rawEntry (s : State) (idx : Byte) : Duration := s.raw.toList.getD idx.toNat 0

/-! The inputs (R60, R220) and reset. -/

/-- The host's next event has been taken; `rest` is still to come (R47). -/
def withInputs (rest : List PortInput) (s : State) : State := { s with inputs := rest }

/-- No command in this step: no response, an idle stream, the registers held (R205). -/
def idle (s : State) : State := { s with rsp := none, tx := [] }

/-- Every register at its reset value, the hardwired table kept, the ports idle (R220, R221). What the host does next is
the host's, and the count of free values drawn is the model's, so both stay. -/
def resetBlock (s : State) : State :=
  { State.resetWith s.proto with inputs := s.inputs, freeCtr := s.freeCtr }

/-- The part of a stream delivered before `rst` rose: a proper prefix, since the stream stops without `tx_last` (R220),
of a length the spec leaves open (93_implementation_defined.md U14; notes/assumptions/7.md). -/
def abandonedTx (full : List TxBeat) (k : Nat) : List TxBeat := full.take (k % full.length)

/-- Reset of a block that was executing a command whose whole stream would have been `full` (R220): the reset state, no
response, a part of the stream already delivered. It draws one free value. -/
def abandon (full : List TxBeat) (s : State) : State :=
  { resetBlock s with tx := abandonedTx full (Config.freePrefix s.freeCtr), freeCtr := s.freeCtr + 1 }

/-! The output pins, as functions of the state (R60, R201). -/

/-- `cmd_ready` between steps: 0 only while `rst` is asserted (R220, R227). -/
def cmdReady (s : State) : Bool :=
  match s.inputs with
  | .reset :: _ => false
  | _ => true

/-- `rsp_valid` in the step just taken (R60). -/
def rspValid (s : State) : Bool := s.rsp.isSome

/-- `rsp_status[3:0]` of the response just given (R74). -/
def rspStatus (s : State) : Option (BitVec 4) := s.rsp.map fun r => statusCode r.status

/-- `rsp_data[71:0]` of the response just given (R75). -/
def rspData (s : State) : Option Payload := s.rsp.map Response.data

/-- `tx_valid` was 1 in some cycle of the step just taken (R76). -/
def txValid (s : State) : Bool := !s.tx.isEmpty

/-- The level output `avail` (R201). -/
def availPin (s : State) : Bool := s.avail

end Sys2Proof.Machine
end

