-- ==== Sys2Proof/Machine/Operands.lean ====
section
/-! DEFINITION. The operands that are more than one unsigned field: the tri-state code word of `ENCT` (spec/30_encoding.md R67, spec/41_encoder.md R111, R113, R115) and the bit pattern of `ENCB` (R116). -/

namespace Sys2Proof.Machine

/-- A symbol of a tri-state code word (R9, R67). -/
inductive Symbol where
  | zero
  | one
  | float
  deriving DecidableEq, Repr

/-- The symbol a 2-bit code stands for; `0b11` is not a symbol (R67). -/
def symbolOf (code : BitVec 2) : Option Symbol :=
  match code.toNat with
  | 0 => some .zero
  | 1 => some .one
  | 2 => some .float
  | _ => none

/-- Slot `k`, which is `cmd[63-2k : 62-2k]` (R67). -/
def slotCode (slots : BitVec 64) (k : Nat) : BitVec 2 := slots.extractLsb' (62 - 2 * k) 2

/-- The codes of the used slots `0 .. nsym-1`, the first symbol first (R67). -/
def usedSlots (nsym : Nat) (slots : BitVec 64) : List (BitVec 2) := (List.range nsym).map (slotCode slots)

/-- The symbols of a list of codes, or nothing if one of them is no symbol (R115). -/
def symbolsOf : List (BitVec 2) → Option (List Symbol)
  | [] => some []
  | c :: cs =>
    match symbolOf c, symbolsOf cs with
    | some x, some xs => some (x :: xs)
    | _, _ => none

/-- `SymbolBits(s)`: the bits a symbol stands for, `F` being 0 then 1 (R111). -/
def symbolBits : Symbol → List Bool
  | .zero => [false]
  | .one => [true]
  | .float => [false, true]

/-- `ExpandWord(w)` (R111). -/
def expandWord (w : List Symbol) : List Bool := w.flatMap symbolBits

/-- The bits of the code word of `ENCT`, or nothing where the word is an `InvalidCodeWord`, the checks in the order of
rule R115. -/
def enctBits (nsym : Byte) (slots : BitVec 64) : Option (List Bool) :=
  if nsym.toNat = 0 then none
  else if 32 < nsym.toNat then none
  else
    match symbolsOf (usedSlots nsym.toNat slots) with
    | none => none
    | some w => if Config.maxBits < (expandWord w).length then none else some (expandWord w)

/-- `[ code[len-1], ..., code[0] ]`: the low `len` bits, the most significant first (R116). -/
def codeBits (len : Nat) (code : BitVec 32) : List Bool :=
  (List.range len).map fun i => code.getLsbD (len - 1 - i)

/-- The bits of the code word of `ENCB`, or nothing where the length is an `InvalidCodeWord` (R116). -/
def encbBits (len : Byte) (code : BitVec 32) : Option (List Bool) :=
  if len.toNat = 0 then none
  else if Config.maxBits < len.toNat then none
  else some (codeBits len.toNat code)

end Sys2Proof.Machine
end

