-- ==== Sys2Proof/Machine/Encoder.lean ====
section
/-! DEFINITION. The Pulse Encoder (spec/41_encoder.md): the functions of rules R110 to R112 and the commands `SETREP`, `ENCT`, `ENCB`. -/

namespace Sys2Proof.Machine

/-- `factor * pulseLength`, exact: the product is below 2^24 (R110, R117). -/
def scale (factor : Byte) (pulseLength : BitVec 16) : Duration :=
  BitVec.ofNat 32 (factor.toNat * pulseLength.toNat)

/-- `EmitPair(hl, P)`: high then low, or low then high for an inverted protocol (R110). -/
def emitPair (hl : HighLow) (p : Protocol) : List Duration :=
  if p.invertedSignal then [scale hl.low p.pulseLength, scale hl.high p.pulseLength]
  else [scale hl.high p.pulseLength, scale hl.low p.pulseLength]

/-- `hlOf(bit)` (R112). -/
def hlOf (p : Protocol) (bit : Bool) : HighLow := if bit then p.one else p.zero

/-- `OneTransmission(bits, P)`: the bits' pairs, then the sync pair (R112). -/
def oneTransmission (bits : List Bool) (p : Protocol) : List Duration :=
  bits.flatMap (fun bit => emitPair (hlOf p bit) p) ++ emitPair p.syncFactor p

/-- `EncodeBits(bits, P, r)`: the transmission `r` times back to back (R112). -/
def encodeBits (bits : List Bool) (p : Protocol) (r : Nat) : List Duration :=
  (List.replicate r (oneTransmission bits p)).flatten

/-- What both encode commands do with their code word: `InvalidCodeWord` before any entry, or the stream (R113, R115,
R116). -/
def encodeWord (bits : Option (List Bool)) (s : State) : State :=
  match bits with
  | none => raiseError .invalidCodeWord s
  | some bs => respondTx (encodeBits bs s.curp s.repeatCnt.toNat) s

/-- `SETREP r` (R114). -/
def execSetrep (r : Byte) (s : State) : Host.Outcome State Fault Refusal :=
  .next (if r.toNat = 0 then raiseError .invalidArgument s else respond 0 (setRepeat r s))

/-- `ENCT w` (R115). -/
def execEnct (nsym : Byte) (slots : BitVec 64) (s : State) : Host.Outcome State Fault Refusal :=
  .next (encodeWord (enctBits nsym slots) s)

/-- `ENCB len, code` (R116). -/
def execEncb (len : Byte) (code : BitVec 32) (s : State) : Host.Outcome State Fault Refusal :=
  .next (encodeWord (encbBits len code) s)

end Sys2Proof.Machine
end

