-- ==== Sys2Proof/Machine/Holder.lean ====
section
/-! DEFINITION. The Received-Result Holder commands (spec/43_holder.md): `AVAIL`, `RSTAVAIL`, the accessors, which never test the flag (R178), and `GETCFG`. -/

namespace Sys2Proof.Machine

/-- `AVAIL` (R170). -/
def execAvail (s : State) : Host.Outcome State Fault Refusal :=
  .next (respond ((BitVec.ofBool s.avail).setWidth 72) s)

/-- `RSTAVAIL` (R171). -/
def execRstavail (s : State) : Host.Outcome State Fault Refusal := .next (respond 0 (clearAvail s))

/-- `GETVAL` (R172). -/
def execGetval (s : State) : Host.Outcome State Fault Refusal := .next (respond (s.value.setWidth 72) s)

/-- `GETLEN` (R173). -/
def execGetlen (s : State) : Host.Outcome State Fault Refusal := .next (respond (s.bitlen.setWidth 72) s)

/-- `GETDLY` (R174). -/
def execGetdly (s : State) : Host.Outcome State Fault Refusal := .next (respond (s.delay.setWidth 72) s)

/-- `GETPROTO` (R175). -/
def execGetproto (s : State) : Host.Outcome State Fault Refusal := .next (respond (s.protoid.setWidth 72) s)

/-- `GETRAW idx` (R176). -/
def execGetraw (idx : Byte) (s : State) : Host.Outcome State Fault Refusal :=
  .next (if 66 < idx.toNat then raiseError .invalidArgument s else respond ((rawEntry s idx).setWidth 72) s)

/-- `GETCFG` (R177). -/
def execGetcfg (s : State) : Host.Outcome State Fault Refusal := .next (respond (cfgWord s) s)

end Sys2Proof.Machine
end

