-- ==== Sys2Proof/Machine/Matcher.lean ====
section
/-! DEFINITION. The Pulse Decoder and its timing matcher (spec/42_decoder.md): the functions of rules R134 to R142, in the natural numbers (R6, R145), and the commands `SETTOL`, `CAPCLR`, `CAPPUSH`, `DECODE`. -/

namespace Sys2Proof.Machine

/-- What a protocol attempt that succeeds returns: `Match(value, bits, delay)` (R135). -/
structure Decoded where
  value : Nat
  bits  : Nat
  delay : Nat
  deriving DecidableEq, Repr

/-- `absdiff(a, b)` (R6). -/
def absdiff (a b : Nat) : Nat := if b ≤ a then a - b else b - a

/-- `Within(obs, exp, tol)`, bounds included (R138). -/
def within (obs exp tol : Nat) : Bool := decide (100 * absdiff obs exp ≤ tol * exp)

/-- `SyncEntries(P, cap, n)`: which of the last two entries is the high interval (R136). -/
def syncEntries (p : Protocol) (cap : List Nat) (n : Nat) : Nat × Nat :=
  if p.invertedSignal then (cap.getD (n - 1) 0, cap.getD (n - 2) 0)
  else (cap.getD (n - 2) 0, cap.getD (n - 1) 0)

/-- `InferDelay(P, sHigh, sLow)`: floor division of the entry with the larger factor, the high one on a tie (R137). -/
def inferDelay (p : Protocol) (sHigh sLow : Nat) : Nat :=
  if p.syncFactor.high.toNat < p.syncFactor.low.toNat then sLow / p.syncFactor.low.toNat
  else sHigh / p.syncFactor.high.toNat

/-- `MatchPair(a, b, hl, P, delay, tol)`: both entries within tolerance, in the order of the polarity (R139). -/
def matchPair (a b : Nat) (hl : HighLow) (p : Protocol) (delay tol : Nat) : Bool :=
  if p.invertedSignal then
    within a (delay * hl.low.toNat) tol && within b (delay * hl.high.toNat) tol
  else
    within a (delay * hl.high.toNat) tol && within b (delay * hl.low.toNat) tol

/-- The bit one data pair stands for, `zero` tested first; nothing if it matches neither encoding (R135, R140). -/
def pairBit (p : Protocol) (delay tol a b : Nat) : Option Nat :=
  if matchPair a b p.zero p delay tol then some 0
  else if matchPair a b p.one p delay tol then some 1
  else none

/-- The entry loop of `TryProtocol` over the data entries, with its accumulator `value` and its bit count (R135, R140). -/
def accumulate (p : Protocol) (delay tol : Nat) : List Nat → Nat → Nat → Option (Nat × Nat)
  | a :: b :: rest, value, bits =>
    match pairBit p delay tol a b with
    | none => none
    | some bit => accumulate p delay tol rest ((2 * value + bit) % 2 ^ 32) (bits + 1)
  | _, value, bits => some (value, bits)

/-- The steps of `TryProtocol` after the count tests, for an inferred delay (R135, R137). -/
def matchEntries (p : Protocol) (cap : List Nat) (n tol delay : Nat) : Option Decoded :=
  if delay = 0 then none
  else
    match accumulate p delay tol (cap.take (n - 2)) 0 0 with
    | none => none
    | some r => some { value := r.1, bits := r.2, delay := delay }

/-- `TryProtocol(P, cap, n, tol)`; `none` is `NoMatch` (R135, R141, R142). -/
def tryProtocol (p : Protocol) (cap : List Nat) (n tol : Nat) : Option Decoded :=
  if n < Config.minChg ∨ Config.maxChg < n then none
  else if n % 2 = 1 then none
  else matchEntries p cap n tol (inferDelay p (syncEntries p cap n).1 (syncEntries p cap n).2)

/-- The protocol loop of `DECODE` over the records from id `id` on: ascending ids, the first match wins (R133, R134). -/
def firstMatch (cap : List Nat) (n tol : Nat) : List Protocol → Nat → Option (Nat × Decoded)
  | [], _ => none
  | p :: ps, id =>
    match tryProtocol p cap n tol with
    | some m => some (id, m)
    | none => firstMatch cap n tol ps (id + 1)

/-- What the decoder finds in the capture buffer (R133). -/
def decodeCapture (s : State) : Option (Nat × Decoded) :=
  firstMatch ((captured s).map BitVec.toNat) s.capcnt.toNat s.tol.toNat s.proto 1

/-- `SETTOL t` (R130). -/
def execSettol (t : Byte) (s : State) : Host.Outcome State Fault Refusal :=
  .next (if Config.tolMax < t.toNat then raiseError .invalidArgument s else respond 0 (setTol t s))

/-- `CAPCLR` (R131). -/
def execCapclr (s : State) : Host.Outcome State Fault Refusal := .next (respond 0 (clearCapture s))

/-- `CAPPUSH d`: on a full buffer the one error that changes state (R132, R197). -/
def execCappush (d : Duration) (s : State) : Host.Outcome State Fault Refusal :=
  .next (if s.capcnt.toNat = Config.maxChg then raiseError .captureOverflow (setCapovf s)
    else respond ((s.capcnt + 1).setWidth 72) (pushCapture d s))

/-- `DECODE` (R133, R144). -/
def execDecode (s : State) : Host.Outcome State Fault Refusal :=
  .next (if s.capovf then raiseError .captureOverflow s
    else match decodeCapture s with
      | none => respond 0 s
      | some (id, m) =>
        respond 1 (publish m.value m.bits id m.delay (rotate (captured s) s.capcnt.toNat) s))

end Sys2Proof.Machine
end

