-- ==== Sys2Proof/Machine/Table.lean ====
section
/-! DEFINITION. The Protocol Table commands (spec/40_protocol_table.md): `NOP`, `PROTOAT`, `SETPROTO`, `SETPROTOF`, `SETPULSE`, `GETCUR`. -/

namespace Sys2Proof.Machine

/-- `NOP` (R91). -/
def execNop (s : State) : Host.Outcome State Fault Refusal := .next (respond 0 s)

/-- `PROTOAT id` (R92). -/
def execProtoat (id : Byte) (s : State) : Host.Outcome State Fault Refusal :=
  .next (match protocolAt s id with
    | none => raiseError .invalidProtocol s
    | some p => respond (packProtocol p) s)

/-- `SETPROTO id` (R93). -/
def execSetproto (id : Byte) (s : State) : Host.Outcome State Fault Refusal :=
  .next (match protocolAt s id with
    | none => raiseError .invalidProtocol s
    | some p => respond 0 (setCurp p s))

/-- `SETPROTOF P`: the reserved bits, then the validity of the record (R94, R97, R198). -/
def execSetprotof (prec : Payload) (s : State) : Host.Outcome State Fault Refusal :=
  .next (if precReserved prec ≠ 0 then raiseError .illegalCommand s
    else if validProtocol (unpackProtocol prec) then respond 0 (setCurp (unpackProtocol prec) s)
    else raiseError .invalidProtocol s)

/-- `SETPULSE pl16` (R95). -/
def execSetpulse (pl16 : BitVec 16) (s : State) : Host.Outcome State Fault Refusal :=
  .next (if pl16.toNat = 0 then raiseError .invalidProtocol s else respond 0 (setCurpPulse pl16 s))

/-- `GETCUR` (R96). -/
def execGetcur (s : State) : Host.Outcome State Fault Refusal := .next (respond (packProtocol s.curp) s)

end Sys2Proof.Machine
end

