-- ==== Sys2Proof/Machine/Dispatch.lean ====
section
/-! DEFINITION. One arm per command of spec/opcode_table.json. -/

namespace Sys2Proof.Machine

def exec (i : Instr) (s : State) : Host.Outcome State Fault Refusal :=
  match i with
  | .nop => Sys2Proof.Machine.execNop s
  | .protoat id => Sys2Proof.Machine.execProtoat id s
  | .setproto id => Sys2Proof.Machine.execSetproto id s
  | .setprotof prec => Sys2Proof.Machine.execSetprotof prec s
  | .setpulse pl16 => Sys2Proof.Machine.execSetpulse pl16 s
  | .getcur => Sys2Proof.Machine.execGetcur s
  | .setrep r => Sys2Proof.Machine.execSetrep r s
  | .enct nsym slots => Sys2Proof.Machine.execEnct nsym slots s
  | .encb len code => Sys2Proof.Machine.execEncb len code s
  | .settol t => Sys2Proof.Machine.execSettol t s
  | .capclr => Sys2Proof.Machine.execCapclr s
  | .cappush d => Sys2Proof.Machine.execCappush d s
  | .decode => Sys2Proof.Machine.execDecode s
  | .avail => Sys2Proof.Machine.execAvail s
  | .rstavail => Sys2Proof.Machine.execRstavail s
  | .getval => Sys2Proof.Machine.execGetval s
  | .getlen => Sys2Proof.Machine.execGetlen s
  | .getdly => Sys2Proof.Machine.execGetdly s
  | .getproto => Sys2Proof.Machine.execGetproto s
  | .getraw idx => Sys2Proof.Machine.execGetraw idx s
  | .getcfg => Sys2Proof.Machine.execGetcfg s

end Sys2Proof.Machine
end

