-- ==== Sys2Proof/Machine/Port.lean ====
section
/-! DEFINITION. What the block does with one event at its inputs: a command word (spec/30_encoding.md rule R77), a reset, or a reset while a command executes (spec/70_reset_and_hazards.md rule R220). -/

namespace Sys2Proof.Machine

/-- A command word taken by the block: decoded and executed, or answered with `IllegalCommand` (R71, R72, R77). -/
def runWord (w : CmdWord) (s : State) : Host.Outcome State Fault Refusal :=
  match decode w with
  | .ok i => exec i s
  | .error _ => .next (raiseError .illegalCommand s)

/-- A command during which `rst` rises: the reset state, with a part of what the command would have streamed already
delivered (R220). -/
def runAbandoned (w : CmdWord) (s : State) : Host.Outcome State Fault Refusal :=
  match runWord w s with
  | .next t => .next (abandon t.tx s)
  | .fault r => .fault r
  | .refused r => .refused r

/-- One event at the inputs; with none, the block is idle and holds its state (R47, R205, R227). -/
def takeInput (s : State) : Host.Outcome State Fault Refusal :=
  match s.inputs with
  | [] => .next (idle s)
  | .command w :: rest => runWord w (withInputs rest s)
  | .reset :: rest => .next (resetBlock (withInputs rest s))
  | .resetDuring w :: rest => runAbandoned w (withInputs rest s)

/-- The host presents `w` before anything else it does. -/
def presentWord (w : CmdWord) (s : State) : State := { s with inputs := .command w :: s.inputs }

end Sys2Proof.Machine
end

