-- ==== Sys2Proof/Machine/Step.lean ====
section
/-! DEFINITION. One step of the machine: one event of the host, the command it presents executed to completion (spec/70_reset_and_hazards.md rule R227). -/

namespace Sys2Proof.Machine

/-- One step: the next event at the block's inputs, taken whole (R47, R227). -/
def step (s : State) : Host.Outcome State Fault Refusal := takeInput s

/-- The block fetches no instruction (R23): the host presents its commands on the command port (R60). The next step of
this state takes the command word whose bits are `w`, numbered as the opcode table numbers them. -/
def State.withFetchWord (s : State) (nbits w : Nat) : State := presentWord (tableWord nbits w) s

end Sys2Proof.Machine
end

