-- ==== Sys2Proof/Machine/HostCommands.lean ====
section
/-! DEFINITION. What the host writes down and issues: the textual form of a command (spec/30_encoding.md rule R78) and the pseudo-commands, each a fixed expansion (R79). The block itself sees command words only. -/

namespace Sys2Proof.Machine

/-! Pseudo-commands (R79). -/

/-- The three pseudo-commands. -/
inductive PseudoCommand where
  /-- `SETPROTOPL id, pl`: select a known protocol, then a custom pulse length on it. -/
  | setprotopl (id : Byte) (pl16 : BitVec 16)
  /-- `SEND len, code`: another name for `ENCB len, code`. -/
  | send (len : Byte) (code : BitVec 32)
  /-- `LOADCAP [d0, ..., dk]`: a new capture. -/
  | loadcap (ds : List Duration)
  deriving DecidableEq, Repr

/-- The commands a pseudo-command stands for, in order (R79). -/
def expansion : PseudoCommand → List Instr
  | .setprotopl id pl16 => [.setproto id, .setpulse pl16]
  | .send len code => [.encb len code]
  | .loadcap ds => .capclr :: ds.map .cappush

/-- A later command is not issued after one that raised: said of `SETPROTOPL` only (R79). -/
def stopsOnError : PseudoCommand → Bool
  | .setprotopl _ _ => true
  | .send _ _ => false
  | .loadcap _ => false

/-- The command just answered raised an error (R199). -/
def raised (s : State) : Bool := s.rsp.any fun r => r.status != .ok

/-- Commands issued one after another, each to completion (R47); the response and the stream left are the last issued
command's. -/
def issue (stop : Bool) : List Instr → State → Host.Outcome State Fault Refusal
  | [], s => .next s
  | i :: rest, s =>
    match exec i s with
    | .next t => if stop && raised t then .next t else issue stop rest t
    | .fault r => .fault r
    | .refused r => .refused r

/-- A pseudo-command issued by the host (R79). -/
def issuePseudo (p : PseudoCommand) (s : State) : Host.Outcome State Fault Refusal :=
  issue (stopsOnError p) (expansion p) s

/-! Text (R78): `MNEMONIC operand, operand`, numbers in decimal. -/

/-- A symbol of a code word; `0b11` is no symbol, and is shown as a question mark. -/
def symbolText (code : BitVec 2) : String :=
  match symbolOf code with
  | some .zero => "0"
  | some .one => "1"
  | some .float => "F"
  | none => "?"

/-- A double-quoted code word, first symbol first; the slots beyond the 32 that exist are not shown. -/
def codeWordText (nsym : Byte) (slots : BitVec 64) : String :=
  "\"" ++ String.join ((usedSlots (min nsym.toNat 32) slots).map symbolText) ++ "\""

/-- A pair of a HighLow. -/
def highLowText (h : HighLow) : String := "(" ++ toString h.high.toNat ++ "," ++ toString h.low.toNat ++ ")"

/-- A Protocol record, between an opening and a closing brace (characters 0x7B and 0x7D). -/
def protocolText (p : Protocol) : String :=
  String.singleton (Char.ofNat 0x7B) ++ toString p.pulseLength.toNat ++ "," ++ highLowText p.syncFactor ++ ","
    ++ highLowText p.zero ++ "," ++ highLowText p.one ++ "," ++ toString p.invertedSignal.toNat
    ++ String.singleton (Char.ofNat 0x7D)

/-- A command as the spec writes it. -/
def commandText : Instr → String
  | .nop => "NOP"
  | .protoat id => "PROTOAT " ++ toString id.toNat
  | .setproto id => "SETPROTO " ++ toString id.toNat
  | .setprotof prec => "SETPROTOF " ++ protocolText (unpackProtocol prec)
  | .setpulse pl16 => "SETPULSE " ++ toString pl16.toNat
  | .getcur => "GETCUR"
  | .setrep r => "SETREP " ++ toString r.toNat
  | .enct nsym slots => "ENCT " ++ codeWordText nsym slots
  | .encb len code => "ENCB " ++ toString len.toNat ++ ", " ++ toString code.toNat
  | .settol t => "SETTOL " ++ toString t.toNat
  | .capclr => "CAPCLR"
  | .cappush d => "CAPPUSH " ++ toString d.toNat
  | .decode => "DECODE"
  | .avail => "AVAIL"
  | .rstavail => "RSTAVAIL"
  | .getval => "GETVAL"
  | .getlen => "GETLEN"
  | .getdly => "GETDLY"
  | .getproto => "GETPROTO"
  | .getraw idx => "GETRAW " ++ toString idx.toNat
  | .getcfg => "GETCFG"

end Sys2Proof.Machine
end

