-- ==== Sys2Proof/Safety.lean ====
section
/-! DEFINITION. The states a run can reach, in the terms the statements use: the legal values of spec/10_state.md rule R26 and what rules R13 to R22 say of a register after a publish. -/

namespace Sys2Proof.Machine

/-- The table and the argument registers hold legal values (R5, R13, R14, R15). -/
structure LegalConfig (s : State) : Prop where
  table   : legalTable s.proto = true
  current : validProtocol s.curp = true
  repeats : 1 ≤ s.repeatCnt.toNat
  tol     : s.tol.toNat ≤ 99

/-- The capture buffer's count is in 0..67, and an overflow is remembered only with a full buffer (R16, R17). -/
structure LegalCapture (s : State) : Prop where
  count    : s.capcnt.toNat ≤ 67
  overflow : s.capovf = true → s.capcnt.toNat = 67

/-- The Holder has never been published: its reset values, and the flag is clear (R24, R29). -/
structure NeverPublished (s : State) : Prop where
  bitlen  : s.bitlen = 0
  value   : s.value = 0
  protoid : s.protoid = 0
  delay   : s.delay = 0
  raw     : ∀ j : Fin 67, s.raw[j] = 0
  avail   : s.avail = false

/-- The Holder as a publish leaves it: 3 to 32 bits, no bit of `VALUE` above them, an id of the table, a positive delay,
and zeros in `RAW` beyond the capture (R18 to R22). -/
structure Published (s : State) : Prop where
  bitlen  : 3 ≤ s.bitlen.toNat ∧ s.bitlen.toNat ≤ 32
  value   : s.value.toNat < 2 ^ s.bitlen.toNat
  protoid : 1 ≤ s.protoid.toNat ∧ s.protoid.toNat ≤ s.proto.length
  delay   : 1 ≤ s.delay.toNat
  raw     : ∀ j : Fin 67, 2 * s.bitlen.toNat + 2 ≤ j.val → s.raw[j] = 0

/-- The ports: an error has response data 0 (R75), `tx_last` stands on the last beat of a stream if on any
(R76), and an error leaves the stream idle (R197). -/
structure LegalPorts (s : State) : Prop where
  errorData : ∀ r, s.rsp = some r → r.status ≠ .ok → r.data = 0 ∧ s.tx = []
  lastBeat  : ∀ k (h : k < s.tx.length), s.tx[k].last = true → k + 1 = s.tx.length

/-- What every state of a run satisfies. -/
structure Legal (s : State) : Prop where
  config  : LegalConfig s
  capture : LegalCapture s
  holder  : NeverPublished s ∨ Published s
  ports   : LegalPorts s

end Sys2Proof.Machine
end

