-- ==== Sys2Proof/WellFormed.lean ====
section
/-! DEFINITION. Which terms of `Instr` spell a command word. The types hold every operand to the width of its field, so one check is left: the reserved bits of a packed Protocol record. -/

namespace Sys2Proof

/-- A command is well formed when its operands can stand in a command word: bits 7:1 of the record of `SETPROTOF` are
reserved and must be zero (R68, R72). An operand outside its LEGAL range (a repeat count of 0, say) is well formed:
the command then runs and raises its error (R77 step 4). -/
def Instr.wellFormed : Instr → Bool
  | .nop => true
  | .protoat _ => true
  | .setproto _ => true
  | .setprotof prec => Machine.precReserved prec == 0
  | .setpulse _ => true
  | .getcur => true
  | .setrep _ => true
  | .enct _ _ => true
  | .encb _ _ => true
  | .settol _ => true
  | .capclr => true
  | .cappush _ => true
  | .decode => true
  | .avail => true
  | .rstavail => true
  | .getval => true
  | .getlen => true
  | .getdly => true
  | .getproto => true
  | .getraw _ => true
  | .getcfg => true

end Sys2Proof
end

