-- ==== Sys2Proof/Certificates/Slice0/Obligations.lean ====
section
/-! DEFINITION. The statements for the provers, from the numbered rules of spec/. What they need to say a rule in its own words stands first, under Claims. -/

namespace Sys2Proof.Claims

open Sys2Proof.Machine

/-! Responses (R8, R75). -/

/-- The response of a command that completes with data `d`. -/
abbrev okRsp (d : Payload) : Option Response := some { status := .ok, data := d }

/-- The response of a command that raises `e`. -/
abbrev errRsp (e : Status) : Option Response := some { status := e, data := 0 }

/-! Formats: which payloads of an opcode spell a command, and which command (R62 to R68, R72). -/

/-- `w` has the legal opcode `op` and a reserved bit that is 1: it spells no command, and the block answers it with
`IllegalCommand` and data 0, puts nothing on the stream and changes nothing (R71, R72). -/
def RaisesIllegal (op : Byte) (w : CmdWord) : Prop :=
  decode w = .error (.reservedBits op) ∧
  ∀ (s : State) (rest : List PortInput), s.inputs = .command w :: rest →
    step s = .next { s with inputs := rest, rsp := errRsp .illegalCommand, tx := [] }

/-- Format Z: every payload bit is reserved (R62). -/
def FormatZ (op : Byte) (i : Instr) : Prop :=
  ∀ pl : Payload, if pl = 0 then decode (op ++ pl) = .ok i else RaisesIllegal op (op ++ pl)

/-- Format B: bits 71:8 reserved, the operand in bits 7:0 (R63). -/
def FormatB (op : Byte) (mk : Byte → Instr) : Prop :=
  ∀ pl : Payload,
    if pl.extractLsb' 8 64 = 0 then decode (op ++ pl) = .ok (mk (pl.extractLsb' 0 8)) else RaisesIllegal op (op ++ pl)

/-- Format H: bits 71:16 reserved, the operand in bits 15:0 (R64). -/
def FormatH (op : Byte) (mk : BitVec 16 → Instr) : Prop :=
  ∀ pl : Payload,
    if pl.extractLsb' 16 56 = 0 then decode (op ++ pl) = .ok (mk (pl.extractLsb' 0 16)) else RaisesIllegal op (op ++ pl)

/-- Format W: bits 71:32 reserved, the operand in bits 31:0 (R65). -/
def FormatW (op : Byte) (mk : BitVec 32 → Instr) : Prop :=
  ∀ pl : Payload,
    if pl.extractLsb' 32 40 = 0 then decode (op ++ pl) = .ok (mk (pl.extractLsb' 0 32)) else RaisesIllegal op (op ++ pl)

/-- Format L: bits 71:40 reserved, the length in bits 39:32, the code in bits 31:0 (R66). -/
def FormatL (op : Byte) (mk : Byte → BitVec 32 → Instr) : Prop :=
  ∀ pl : Payload,
    if pl.extractLsb' 40 32 = 0 then decode (op ++ pl) = .ok (mk (pl.extractLsb' 32 8) (pl.extractLsb' 0 32))
    else RaisesIllegal op (op ++ pl)

/-- Format T: no bit reserved, the symbol count in bits 71:64, the slots in bits 63:0 (R67). -/
def FormatT (op : Byte) (mk : Byte → BitVec 64 → Instr) : Prop :=
  ∀ pl : Payload, decode (op ++ pl) = .ok (mk (pl.extractLsb' 64 8) (pl.extractLsb' 0 64))

/-- Format P: bits 7:1 reserved (R68). -/
def FormatP (op : Byte) (mk : Payload → Instr) : Prop :=
  ∀ pl : Payload, if pl.extractLsb' 1 7 = 0 then decode (op ++ pl) = .ok (mk pl) else RaisesIllegal op (op ++ pl)

/-- spec/opcode_table.json: the match and the mask of each row (R70). -/
def opcodeRows : List (CmdWord × CmdWord) :=
  [(0x00000000000000000000, 0xFFFFFFFFFFFFFFFFFFFF), (0x10000000000000000000, 0xFFFFFFFFFFFFFFFFFF00),
   (0x11000000000000000000, 0xFFFFFFFFFFFFFFFFFF00), (0x12000000000000000000, 0xFF0000000000000000FE),
   (0x13000000000000000000, 0xFFFFFFFFFFFFFFFF0000), (0x14000000000000000000, 0xFFFFFFFFFFFFFFFFFFFF),
   (0x20000000000000000000, 0xFFFFFFFFFFFFFFFFFF00), (0x21000000000000000000, 0xFF000000000000000000),
   (0x22000000000000000000, 0xFFFFFFFFFF0000000000), (0x30000000000000000000, 0xFFFFFFFFFFFFFFFFFF00),
   (0x31000000000000000000, 0xFFFFFFFFFFFFFFFFFFFF), (0x32000000000000000000, 0xFFFFFFFFFFFF00000000),
   (0x33000000000000000000, 0xFFFFFFFFFFFFFFFFFFFF), (0x40000000000000000000, 0xFFFFFFFFFFFFFFFFFFFF),
   (0x41000000000000000000, 0xFFFFFFFFFFFFFFFFFFFF), (0x42000000000000000000, 0xFFFFFFFFFFFFFFFFFFFF),
   (0x43000000000000000000, 0xFFFFFFFFFFFFFFFFFFFF), (0x44000000000000000000, 0xFFFFFFFFFFFFFFFFFFFF),
   (0x45000000000000000000, 0xFFFFFFFFFFFFFFFFFFFF), (0x46000000000000000000, 0xFFFFFFFFFFFFFFFFFF00),
   (0x47000000000000000000, 0xFFFFFFFFFFFFFFFFFFFF)]

/-- The opcodes of rule R70. -/
def opcodes : List Byte :=
  [0x00, 0x10, 0x11, 0x12, 0x13, 0x14, 0x20, 0x21, 0x22, 0x30, 0x31, 0x32, 0x33, 0x40, 0x41, 0x42, 0x43, 0x44, 0x45,
   0x46, 0x47]

/-! Protocols and pulses. -/

/-- `ValidProtocol` as rule R97 writes it. -/
abbrev AllPositive (p : Protocol) : Prop :=
  1 ≤ p.pulseLength.toNat ∧ 1 ≤ p.syncFactor.high.toNat ∧ 1 ≤ p.syncFactor.low.toNat ∧ 1 ≤ p.zero.high.toNat ∧
    1 ≤ p.zero.low.toNat ∧ 1 ≤ p.one.high.toNat ∧ 1 ≤ p.one.low.toNat

/-- The two entries of a HighLow at a pulse length `unit`, in the order of the polarity (R110, R139). -/
def entriesOf (hl : HighLow) (p : Protocol) (unit : Nat) : Nat × Nat :=
  if p.invertedSignal then (hl.low.toNat * unit, hl.high.toNat * unit) else (hl.high.toNat * unit, hl.low.toNat * unit)

/-- The stream holds the pair of entries `e` at positions `k` and `k + 1`. -/
def HoldsPair (tx : List TxBeat) (k : Nat) (e : Nat × Nat) : Prop :=
  (tx[k]?).map (fun b => b.data.toNat) = some e.1 ∧ (tx[k + 1]?).map (fun b => b.data.toNat) = some e.2

/-- The stream of `bits` under `p`, repeated `r` times (R76, R112): each transmission is one pair of entries a bit, then
the sync pair, transmissions stand back to back, and `tx_last` is on the final entry alone. -/
structure StreamOf (tx : List TxBeat) (bits : List Bool) (p : Protocol) (r : Nat) : Prop where
  length : tx.length = r * (2 * bits.length + 2)
  data   : ∀ k < r, ∀ i bit, bits[i]? = some bit →
    HoldsPair tx (k * (2 * bits.length + 2) + 2 * i) (entriesOf (if bit then p.one else p.zero) p p.pulseLength.toNat)
  sync   : ∀ k < r,
    HoldsPair tx (k * (2 * bits.length + 2) + 2 * bits.length) (entriesOf p.syncFactor p p.pulseLength.toNat)
  last   : ∀ k b, tx[k]? = some b → (b.last = true ↔ k + 1 = tx.length)

/-- The bits slot `k` stands for, read from bits `63-2k` and `62-2k` of the slots (R67, R111). -/
def slotBits (slots : BitVec 64) (k : Nat) : List Bool :=
  match slots.getLsbD (63 - 2 * k), slots.getLsbD (62 - 2 * k) with
  | false, false => [false]
  | false, true => [true]
  | true, false => [false, true]
  | true, true => []

/-- `ExpandWord` of the first `n` slots (R111). -/
def wordBits (n : Nat) (slots : BitVec 64) : List Bool := (List.range n).flatMap (slotBits slots)

/-- One of the first `n` slots holds `0b11` (R115). -/
def hasBadSlot (n : Nat) (slots : BitVec 64) : Bool :=
  (List.range n).any fun k => slots.getLsbD (63 - 2 * k) && slots.getLsbD (62 - 2 * k)

/-- The code word of `ENCT` is an `InvalidCodeWord` (R113, R115). -/
abbrev BadWord (nsym : Byte) (slots : BitVec 64) : Prop :=
  nsym.toNat = 0 ∨ 32 < nsym.toNat ∨ hasBadSlot nsym.toNat slots = true ∨ 32 < (wordBits nsym.toNat slots).length

/-! The matcher. -/

/-- The durations in the capture buffer (R16, R133). -/
def captureOf (s : State) : List Nat := (s.cap.toList.take s.capcnt.toNat).map BitVec.toNat

/-- The attempt of protocol `p` on the capture of `s` (R133, R135). -/
def attempt (s : State) (p : Protocol) : Option Decoded := tryProtocol p (captureOf s) s.capcnt.toNat s.tol.toNat

/-- `Within`, as a lower and an upper bound on the observed duration (R138). -/
def Near (obs exp tol : Nat) : Prop := 100 * obs ≤ 100 * exp + tol * exp ∧ 100 * exp ≤ 100 * obs + tol * exp

/-- `MatchPair` (R139). -/
def PairMatches (a b : Nat) (hl : HighLow) (p : Protocol) (delay tol : Nat) : Prop :=
  Near a (entriesOf hl p delay).1 tol ∧ Near b (entriesOf hl p delay).2 tol

/-- The delay inferred from the last two entries (R136, R137). -/
def delayOf (p : Protocol) (cap : List Nat) (n : Nat) : Nat :=
  let hl := if p.invertedSignal then (cap.getD (n - 1) 0, cap.getD (n - 2) 0) else (cap.getD (n - 2) 0, cap.getD (n - 1) 0)
  if p.syncFactor.high.toNat < p.syncFactor.low.toNat then hl.2 / p.syncFactor.low.toNat
  else hl.1 / p.syncFactor.high.toNat

/-- At this delay and tolerance the pair emitted for a 1 does not pass the `zero` test (R147). -/
def ToldApart (p : Protocol) (delay tol : Nat) : Prop :=
  ¬ PairMatches (entriesOf p.one p delay).1 (entriesOf p.one p delay).2 p.zero p delay tol

/-- `bits` read as a binary number, the first bit most significant (R140, R147). -/
def binary (bits : List Bool) : Nat := bits.foldl (fun v b => 2 * v + b.toNat) 0

/-- `raw` is the capture of `s` with the sync pair moved to the front and zeros behind (R143). -/
structure RotationOf (raw : Vector Duration 67) (s : State) : Prop where
  sync0 : raw[0]? = s.cap[s.capcnt.toNat - 2]?
  sync1 : raw[1]? = s.cap[s.capcnt.toNat - 1]?
  data  : ∀ k, k + 2 < s.capcnt.toNat → raw[k + 2]? = s.cap[k]?
  tail  : ∀ j : Fin 67, s.capcnt.toNat ≤ j.val → raw[j] = 0

/-! Whole states. -/

/-- The registers as rule R29 states them after a reset; `CAP` is unspecified there, and not constrained here. -/
structure ResetValues (table : List Protocol) (s : State) : Prop where
  proto   : s.proto = table
  curp    : ∀ p, table[0]? = some p → s.curp = p
  repeats : s.repeatCnt = 10
  tol     : s.tol = 20
  capcnt  : s.capcnt = 0
  capovf  : s.capovf = false
  value   : s.value = 0
  bitlen  : s.bitlen = 0
  protoid : s.protoid = 0
  delay   : s.delay = 0
  raw     : ∀ j : Fin 67, s.raw[j] = 0
  avail   : s.avail = false

/-- The five Holder fields are the same. -/
def SameHolder (s t : State) : Prop :=
  t.value = s.value ∧ t.bitlen = s.bitlen ∧ t.protoid = s.protoid ∧ t.delay = s.delay ∧ t.raw = s.raw

/-- The command writes `CURP` (R26). -/
def writesCurp : Instr → Bool
  | .setproto _ | .setprotof _ | .setpulse _ => true
  | _ => false

/-- The status the table of rule R190 gives a command in a state. -/
def tabledStatus (i : Instr) (s : State) : Status :=
  match i with
  | .protoat id | .setproto id => if id.toNat = 0 ∨ s.proto.length < id.toNat then .invalidProtocol else .ok
  | .setprotof prec =>
    if prec.extractLsb' 1 7 ≠ 0 then .illegalCommand
    else if AllPositive (unpackProtocol prec) then .ok else .invalidProtocol
  | .setpulse pl16 => if pl16 = 0 then .invalidProtocol else .ok
  | .setrep r => if r = 0 then .invalidArgument else .ok
  | .enct nsym slots => if BadWord nsym slots then .invalidCodeWord else .ok
  | .encb len _ => if len.toNat = 0 ∨ 32 < len.toNat then .invalidCodeWord else .ok
  | .settol t => if 99 < t.toNat then .invalidArgument else .ok
  | .cappush _ => if s.capcnt.toNat = 67 then .captureOverflow else .ok
  | .decode => if s.capovf then .captureOverflow else .ok
  | .getraw idx => if 66 < idx.toNat then .invalidArgument else .ok
  | .nop | .getcur | .capclr | .avail | .rstavail | .getval | .getlen | .getdly | .getproto | .getcfg => .ok

end Sys2Proof.Claims

open Sys2Proof Sys2Proof.Machine Sys2Proof.Claims

/-! Encoding (spec/30_encoding.md). -/

/-- R62 to R68, R70, R77: decoding the encoding of a well-formed command gives the command back, with every operand at
every value its field admits. -/
def Obligations.DecodeInvertsEncode : Prop :=
  ∀ i : Instr, i.wellFormed = true → decode (encode i) = .ok i

/-- R61, R70, R77: a word that spells a command spells a well-formed one, and is its encoding, bit for bit. -/
def Obligations.DecodedWordIsItsEncoding : Prop :=
  ∀ (w : CmdWord) (i : Instr), decode w = .ok i → i.wellFormed = true ∧ encode i = w

/-- R70 to R72: a word spells a command exactly if it matches a row of spec/opcode_table.json. -/
def Obligations.WordSpellsCommandIffInTable : Prop :=
  ∀ w : CmdWord, (∃ i, decode w = .ok i) ↔ ∃ row ∈ opcodeRows, w &&& row.2 = row.1

/-- R71: an opcode outside the map raises `IllegalCommand`, code 5, and nothing else happens. -/
def Obligations.IllegalOpcodeRaises : Prop :=
  256 - opcodes.length = 235 ∧ statusCode .illegalCommand = 5 ∧
  ∀ (s : State) (w : CmdWord) (rest : List PortInput), s.inputs = .command w :: rest →
    w.extractLsb' 72 8 ∉ opcodes →
    step s = .next { s with inputs := rest, rsp := errRsp .illegalCommand, tx := [] }

/-- R72: a legal opcode with a reserved bit that is 1 raises `IllegalCommand` exactly as in rule R71; format T has no
reserved bit. -/
def Obligations.ReservedBitRaises : Prop :=
  (∀ (s : State) (w : CmdWord) (rest : List PortInput), s.inputs = .command w :: rest →
    ∀ row ∈ opcodeRows, w.extractLsb' 72 8 = row.1.extractLsb' 72 8 → w &&& row.2 ≠ row.1 →
    step s = .next { s with inputs := rest, rsp := errRsp .illegalCommand, tx := [] }) ∧
  FormatT 0x21 .enct

/-- R73: the all-zero command word is `NOP`; it changes nothing and responds `OK` with data 0. -/
def Obligations.AllZeroWordIsNop : Prop :=
  decode 0 = .ok .nop ∧
  ∀ (s : State) (rest : List PortInput), s.inputs = .command 0 :: rest →
    step s = .next { s with inputs := rest, rsp := okRsp 0, tx := [] }

/-- R47, R77, R227: a command word presented is decoded and the command executed, whole, in one step. -/
def Obligations.StepRunsDecodedCommand : Prop :=
  (∀ (s : State) (w : CmdWord) (rest : List PortInput) (i : Instr),
    s.inputs = .command w :: rest → decode w = .ok i → step s = exec i { s with inputs := rest }) ∧
  (∀ (s : State) (w : Nat) (i : Instr), decodeTableWord 80 w = some i → step (s.withFetchWord 80 w) = exec i s)

/-- Words of spec/95_test_vectors.md, one of each format, decode to the commands they stand for. -/
def Obligations.SpecWordsDecode : Prop :=
  decode 0x33000000000000000000 = .ok .decode ∧
  decode 0x46000000000000000042 = .ok (.getraw 66) ∧
  decode 0x1300000000000000012C = .ok (.setpulse 300) ∧
  decode 0x32000000000000002A62 = .ok (.cappush 10850) ∧
  decode 0x22000000001800001511 = .ok (.encb 24 5393) ∧
  decode 0x21032400000000000000 = .ok (.enct 3 0x2400000000000000) ∧
  decode 0x1201C217010102020101 = .ok (.setprotof (packProtocol ⟨450, ⟨23, 1⟩, ⟨1, 2⟩, ⟨2, 1⟩, true⟩))

/-- R42: a command word carried as ten bytes, most significant first, arrives as it was; the opcode is the first byte. -/
def Obligations.SerialisedWordArrives : Prop :=
  ∀ w : CmdWord, wordOfBytes (bytesOf 10 w) = .ok w ∧ (bytesOf 10 w)[0]? = some (w.extractLsb' 72 8)

/-- R68, R69: where every field of a packed record stands, and that packing and unpacking are inverse on records whose
reserved bits are zero. -/
def Obligations.PackedRecordLayout : Prop :=
  (∀ p : Protocol,
    (packProtocol p).extractLsb' 56 16 = p.pulseLength ∧
    (packProtocol p).extractLsb' 48 8 = p.syncFactor.high ∧ (packProtocol p).extractLsb' 40 8 = p.syncFactor.low ∧
    (packProtocol p).extractLsb' 32 8 = p.zero.high ∧ (packProtocol p).extractLsb' 24 8 = p.zero.low ∧
    (packProtocol p).extractLsb' 16 8 = p.one.high ∧ (packProtocol p).extractLsb' 8 8 = p.one.low ∧
    (packProtocol p).extractLsb' 1 7 = 0 ∧ (packProtocol p).getLsbD 0 = p.invertedSignal ∧
    unpackProtocol (packProtocol p) = p) ∧
  (∀ prec : Payload, prec.extractLsb' 1 7 = 0 → packProtocol (unpackProtocol prec) = prec) ∧
  packProtocol ⟨350, ⟨1, 31⟩, ⟨1, 3⟩, ⟨3, 1⟩, false⟩ = 0x015E011F0103030100 ∧
  packProtocol ⟨450, ⟨23, 1⟩, ⟨1, 2⟩, ⟨2, 1⟩, true⟩ = 0x01C217010102020101

/-- R74: the status codes; 6 to 15 are never produced. -/
def Obligations.StatusCodesAsTabled : Prop :=
  statusCode .ok = 0 ∧ statusCode .invalidProtocol = 1 ∧ statusCode .invalidCodeWord = 2 ∧
  statusCode .captureOverflow = 3 ∧ statusCode .invalidArgument = 4 ∧ statusCode .illegalCommand = 5 ∧
  ∀ s : State, ∀ c, rspStatus s = some c → c.toNat ≤ 5

/-! Protocol Table commands (spec/40_protocol_table.md). -/

/-- R91. -/
def Obligations.NopRespondsOk : Prop :=
  FormatZ 0x00 .nop ∧
  ∀ s : State, exec .nop s = .next { s with rsp := okRsp 0, tx := [] }

/-- R90, R92: the stored record for an id in 1..N, whatever `CURP` holds; `InvalidProtocol` for every other id. -/
def Obligations.ProtoatReadsStoredRecord : Prop :=
  FormatB 0x10 .protoat ∧
  (∀ (s : State) (id : Byte) (p : Protocol), 1 ≤ id.toNat → s.proto[id.toNat - 1]? = some p →
    exec (.protoat id) s = .next { s with rsp := okRsp (packProtocol p), tx := [] }) ∧
  (∀ (s : State) (id : Byte), id.toNat = 0 ∨ s.proto.length < id.toNat →
    exec (.protoat id) s = .next { s with rsp := errRsp .invalidProtocol, tx := [] })

/-- R90, R93: `CURP` becomes a copy of the stored record, and nothing else changes; on a bad id `CURP` is unchanged. -/
def Obligations.SetprotoInstallsStoredRecord : Prop :=
  FormatB 0x11 .setproto ∧
  (∀ (s : State) (id : Byte) (p : Protocol), 1 ≤ id.toNat → s.proto[id.toNat - 1]? = some p →
    exec (.setproto id) s = .next { s with curp := p, rsp := okRsp 0, tx := [] }) ∧
  (∀ (s : State) (id : Byte), id.toNat = 0 ∨ s.proto.length < id.toNat →
    exec (.setproto id) s = .next { s with rsp := errRsp .invalidProtocol, tx := [] })

/-- R94, R97: the record is installed if its reserved bits are zero and its seven numbers are positive; reserved bits are
tested first. -/
def Obligations.SetprotofInstallsRecord : Prop :=
  FormatP 0x12 .setprotof ∧
  (∀ (s : State) (prec : Payload), prec.extractLsb' 1 7 = 0 → AllPositive (unpackProtocol prec) →
    exec (.setprotof prec) s = .next { s with curp := unpackProtocol prec, rsp := okRsp 0, tx := [] }) ∧
  (∀ (s : State) (prec : Payload), prec.extractLsb' 1 7 = 0 → ¬ AllPositive (unpackProtocol prec) →
    exec (.setprotof prec) s = .next { s with rsp := errRsp .invalidProtocol, tx := [] }) ∧
  (∀ (s : State) (prec : Payload), prec.extractLsb' 1 7 ≠ 0 →
    exec (.setprotof prec) s = .next { s with rsp := errRsp .illegalCommand, tx := [] })

/-- R95: the pulse length of `CURP` and no other field of it; 0 is refused. -/
def Obligations.SetpulseOverridesPulseLength : Prop :=
  FormatH 0x13 .setpulse ∧
  (∀ (s : State) (pl16 : BitVec 16), pl16 ≠ 0 →
    exec (.setpulse pl16) s =
      .next { s with curp := { s.curp with pulseLength := pl16 }, rsp := okRsp 0, tx := [] }) ∧
  (∀ s : State, exec (.setpulse 0) s = .next { s with rsp := errRsp .invalidProtocol, tx := [] })

/-- R96. -/
def Obligations.GetcurReadsCurrentProtocol : Prop :=
  FormatZ 0x14 .getcur ∧
  ∀ s : State, exec .getcur s = .next { s with rsp := okRsp (packProtocol s.curp), tx := [] }

/-- R229: a stored or a fully specified protocol that is installed after a `SETPULSE` replaces the pulse length too. -/
def Obligations.SelectionDropsPulseOverride : Prop :=
  ∀ (s t : State) (pl16 : BitVec 16), exec (.setpulse pl16) s = .next t →
    (∀ (id : Byte) (p : Protocol), 1 ≤ id.toNat → s.proto[id.toNat - 1]? = some p →
      exec (.setproto id) t = exec (.setproto id) s) ∧
    (∀ prec : Payload, prec.extractLsb' 1 7 = 0 → AllPositive (unpackProtocol prec) →
      exec (.setprotof prec) t = exec (.setprotof prec) s)

/-- R79: `SETPROTOPL` selects a stored protocol and then overrides its pulse length; after a bad id the second command is not
issued, and after a pulse length of 0 the selection stands. `SEND` is `ENCB`. -/
def Obligations.SetprotoplSelectsAndOverrides : Prop :=
  (∀ (s : State) (id : Byte) (pl16 : BitVec 16) (p : Protocol), 1 ≤ id.toNat → s.proto[id.toNat - 1]? = some p →
    issuePseudo (.setprotopl id pl16) s =
      if pl16 = 0 then .next { s with curp := p, rsp := errRsp .invalidProtocol, tx := [] }
      else .next { s with curp := { p with pulseLength := pl16 }, rsp := okRsp 0, tx := [] }) ∧
  (∀ (s : State) (id : Byte) (pl16 : BitVec 16), id.toNat = 0 ∨ s.proto.length < id.toNat →
    issuePseudo (.setprotopl id pl16) s = .next { s with rsp := errRsp .invalidProtocol, tx := [] }) ∧
  (∀ (s : State) (len : Byte) (code : BitVec 32), issuePseudo (.send len code) s = exec (.encb len code) s)

/-! Encoder commands (spec/41_encoder.md). -/

/-- R114. -/
def Obligations.SetrepSetsRepeatCount : Prop :=
  FormatB 0x20 .setrep ∧
  (∀ (s : State) (r : Byte), r ≠ 0 →
    exec (.setrep r) s = .next { s with repeatCnt := r, rsp := okRsp 0, tx := [] }) ∧
  (∀ s : State, exec (.setrep 0) s = .next { s with rsp := errRsp .invalidArgument, tx := [] })

/-- R115: the stream of the expanded word under `CURP`, `REPEAT` times, its length the response; `InvalidCodeWord` and no
stream for a malformed word. -/
def Obligations.EnctStreamsCodeWord : Prop :=
  FormatT 0x21 .enct ∧
  (∀ (s : State) (nsym : Byte) (slots : BitVec 64), ¬ BadWord nsym slots →
    ∃ tx, exec (.enct nsym slots) s =
        .next { s with
          rsp := okRsp (BitVec.ofNat 72 (s.repeatCnt.toNat * (2 * (wordBits nsym.toNat slots).length + 2))), tx := tx } ∧
      StreamOf tx (wordBits nsym.toNat slots) s.curp s.repeatCnt.toNat) ∧
  (∀ (s : State) (nsym : Byte) (slots : BitVec 64), BadWord nsym slots →
    exec (.enct nsym slots) s = .next { s with rsp := errRsp .invalidCodeWord, tx := [] })

/-- R116: the stream of the low `len` bits of `code`, the most significant first; `InvalidCodeWord` for a length of 0 or
above 32. -/
def Obligations.EncbStreamsCode : Prop :=
  FormatL 0x22 .encb ∧
  (∀ (s : State) (len : Byte) (code : BitVec 32), 1 ≤ len.toNat → len.toNat ≤ 32 →
    ∃ tx bits, exec (.encb len code) s =
        .next { s with rsp := okRsp (BitVec.ofNat 72 (s.repeatCnt.toNat * (2 * len.toNat + 2))), tx := tx } ∧
      bits.length = len.toNat ∧ (∀ i < len.toNat, bits[i]? = some (code.getLsbD (len.toNat - 1 - i))) ∧
      StreamOf tx bits s.curp s.repeatCnt.toNat) ∧
  (∀ (s : State) (len : Byte) (code : BitVec 32), len.toNat = 0 ∨ 32 < len.toNat →
    exec (.encb len code) s = .next { s with rsp := errRsp .invalidCodeWord, tx := [] })

/-- R116: `ENCB` and the `ENCT` of the same symbols `0` and `1` do the same. -/
def Obligations.EnctWithoutFloatIsEncb : Prop :=
  ∀ (s : State) (len : Byte) (code : BitVec 32) (slots : BitVec 64), 1 ≤ len.toNat → len.toNat ≤ 32 →
    (∀ k < len.toNat, slots.getLsbD (63 - 2 * k) = false ∧
      slots.getLsbD (62 - 2 * k) = code.getLsbD (len.toNat - 1 - k)) →
    exec (.enct len slots) s = exec (.encb len code) s

/-- R118: what an encode command does depends on its operand, `CURP` and `REPEAT` alone, and it changes no register. -/
def Obligations.EncodeCommandsArePure : Prop :=
  ∀ (i : Instr), (∃ nsym slots, i = .enct nsym slots) ∨ (∃ len code, i = .encb len code) →
    ∀ s u : State, s.curp = u.curp → s.repeatCnt = u.repeatCnt →
      ∃ rsp tx, exec i s = .next { s with rsp := rsp, tx := tx } ∧ exec i u = .next { u with rsp := rsp, tx := tx }

/-- R110, R115, R117: with legal registers every stream has at most 255 * 66 entries, each in 1 .. 255 * 65535. -/
def Obligations.StreamsAreBounded : Prop :=
  ∀ (i : Instr) (s t : State), LegalConfig s → exec i s = .next t →
    t.tx.length ≤ 16830 ∧ ∀ b ∈ t.tx, 1 ≤ b.data.toNat ∧ b.data.toNat ≤ 16711425

/-! Decoder commands (spec/42_decoder.md). -/

/-- R130. -/
def Obligations.SettolSetsTolerance : Prop :=
  FormatB 0x30 .settol ∧
  (∀ (s : State) (t : Byte), t.toNat ≤ 99 →
    exec (.settol t) s = .next { s with tol := t, rsp := okRsp 0, tx := [] }) ∧
  (∀ (s : State) (t : Byte), 99 < t.toNat →
    exec (.settol t) s = .next { s with rsp := errRsp .invalidArgument, tx := [] })

/-- R131. -/
def Obligations.CapclrEmptiesBuffer : Prop :=
  FormatZ 0x31 .capclr ∧
  ∀ s : State, exec .capclr s = .next { s with capcnt := 0, capovf := false, rsp := okRsp 0, tx := [] }

/-- R132: the entry at `CAPCNT` is written and no other, the new count is the response; a full buffer drops the entry, sets
`CAPOVF` and answers `CaptureOverflow`. -/
def Obligations.CappushAppendsEntry : Prop :=
  FormatW 0x32 .cappush ∧
  (∀ (s : State) (d : Duration), s.capcnt.toNat < 67 →
    ∃ cap : Vector Duration 67,
      exec (.cappush d) s =
        .next { s with
          cap := cap, capcnt := s.capcnt + 1, rsp := okRsp (BitVec.ofNat 72 (s.capcnt.toNat + 1)), tx := [] } ∧
      ∀ j : Fin 67, cap[j] = if j.val = s.capcnt.toNat then d else s.cap[j]) ∧
  (∀ (s : State) (d : Duration), s.capcnt.toNat = 67 →
    exec (.cappush d) s = .next { s with capovf := true, rsp := errRsp .captureOverflow, tx := [] })

/-- R16, R17, R79, R131, R132: `LOADCAP` of at most 67 durations leaves exactly those in the buffer, in order; of more, the
first 67, with the overflow remembered. No other register changes. -/
def Obligations.LoadcapLoadsCapture : Prop :=
  ∀ (s : State) (ds : List Duration),
    ∃ (t : State) (rsp : Option Response), issuePseudo (.loadcap ds) s = .next t ∧
      t.capcnt.toNat = min ds.length 67 ∧ (t.capovf = true ↔ 67 < ds.length) ∧
      t.cap.toList.take (min ds.length 67) = ds.take 67 ∧
      t = { s with cap := t.cap, capcnt := t.capcnt, capovf := t.capovf, rsp := rsp, tx := [] }

/-- R133, R134, R143, R144: an overflowed buffer is refused; else the stored protocol of lowest id that matches is
published, every Holder field and the flag in one step; else the answer is `OK` with 0 and nothing is written. -/
def Obligations.DecodePublishesFirstMatch : Prop :=
  FormatZ 0x33 .decode ∧
  (∀ s : State, s.capovf = true →
    exec .decode s = .next { s with rsp := errRsp .captureOverflow, tx := [] }) ∧
  (∀ s : State, s.capovf = false → (∀ p ∈ s.proto, attempt s p = none) →
    exec .decode s = .next { s with rsp := okRsp 0, tx := [] }) ∧
  (∀ (s : State) (k : Nat) (p : Protocol) (m : Decoded), s.capovf = false → s.proto[k]? = some p →
    attempt s p = some m → (∀ j q, j < k → s.proto[j]? = some q → attempt s q = none) →
    ∃ raw, exec .decode s =
        .next { s with
          value := BitVec.ofNat 32 m.value, bitlen := BitVec.ofNat 8 m.bits, protoid := BitVec.ofNat 8 (k + 1),
          delay := BitVec.ofNat 32 m.delay, raw := raw, avail := true, rsp := okRsp 1, tx := [] } ∧
      RotationOf raw s)

/-- R138: the bounds of the tolerance band are included, one percent more fails, tolerance 0 asks for equality, and an
observed 0 never passes at a tolerance of at most 99. -/
def Obligations.ToleranceBandIsExact : Prop :=
  (∀ obs exp tol : Nat, within obs exp tol = true ↔ Near obs exp tol) ∧
  (∀ x tol : Nat, within (x * (100 + tol)) (100 * x) tol = true) ∧
  (∀ x tol : Nat, 0 < x → within (x * (100 + tol + 1)) (100 * x) tol = false) ∧
  (∀ x tol : Nat, tol ≤ 99 → within (x * (100 - tol)) (100 * x) tol = true) ∧
  (∀ x tol : Nat, 0 < x → tol ≤ 99 → within (x * (100 - tol - 1)) (100 * x) tol = false) ∧
  (∀ obs exp : Nat, within obs exp 0 = true ↔ obs = exp) ∧
  (∀ exp tol : Nat, 1 ≤ exp → tol ≤ 99 → within 0 exp tol = false)

/-- R135 to R142: exactly when one protocol matches a capture, and which value, bit count and delay it then gives. -/
def Obligations.MatcherReadsEveryPair : Prop :=
  ∀ (p : Protocol) (cap : List Nat) (tol v b d : Nat),
    tryProtocol p cap cap.length tol = some { value := v, bits := b, delay := d } ↔
      7 ≤ cap.length ∧ cap.length ≤ 67 ∧ cap.length = 2 * b + 2 ∧
      d = delayOf p cap cap.length ∧ d ≠ 0 ∧ v < 2 ^ b ∧
      ∀ i < b,
        if v.testBit (b - 1 - i) then
          PairMatches (cap.getD (2 * i) 0) (cap.getD (2 * i + 1) 0) p.one p d tol ∧
            ¬ PairMatches (cap.getD (2 * i) 0) (cap.getD (2 * i + 1) 0) p.zero p d tol
        else PairMatches (cap.getD (2 * i) 0) (cap.getD (2 * i + 1) 0) p.zero p d tol

/-- R141, R142: a capture of fewer than 7 entries, or of an odd number of them, never decodes, whatever the table. -/
def Obligations.ShortOrOddCaptureNeverDecodes : Prop :=
  ∀ s : State, s.capovf = false → s.capcnt.toNat < 7 ∨ s.capcnt.toNat % 2 = 1 →
    exec .decode s = .next { s with rsp := okRsp 0, tx := [] }

/-- R133, U11: `DECODE` reads `PROTO`, `TOL`, `CAPOVF`, `CAPCNT` and the entries below `CAPCNT`, and nothing else:
two states that agree there get the same response, and the same Holder if it is a publish. -/
def Obligations.DecodeReadsOnlyItsInputs : Prop :=
  ∀ s u t v : State, s.proto = u.proto → s.tol = u.tol → s.capovf = u.capovf → s.capcnt = u.capcnt →
    (∀ j : Fin 67, j.val < s.capcnt.toNat → s.cap[j] = u.cap[j]) →
    exec .decode s = .next t → exec .decode u = .next v →
    t.rsp = v.rsp ∧ (t.rsp = okRsp 1 → SameHolder t v ∧ t.avail = true ∧ v.avail = true)

/-- R147: one transmission of 3 to 32 bits under a valid protocol is read back by that protocol's attempt: the value, the
bit count, and the pulse length as the delay. -/
def Obligations.MatcherReadsBackTransmission : Prop :=
  ∀ (p : Protocol) (bits : List Bool) (tol : Nat), AllPositive p → 3 ≤ bits.length → bits.length ≤ 32 →
    ToldApart p p.pulseLength.toNat tol →
    tryProtocol p ((oneTransmission bits p).map BitVec.toNat) (2 * bits.length + 2) tol =
      some { value := binary bits, bits := bits.length, delay := p.pulseLength.toNat }

/-- R143, R147: what `ENCB` streams once under a stored protocol, `DECODE` publishes from the capture buffer, if no
stored protocol of lower id matches: the code's low `len` bits, the length, the id, the pulse length, and in `RAW` every
entry that was sent. -/
def Obligations.EncodedTransmissionDecodes : Prop :=
  ∀ (s t u : State) (len : Byte) (code : BitVec 32) (k : Nat),
    exec (.encb len code) s = .next t → s.repeatCnt = 1 → AllPositive s.curp → 3 ≤ len.toNat → len.toNat ≤ 32 →
    u.capovf = false → u.capcnt.toNat = 2 * len.toNat + 2 →
    u.cap.toList.take (2 * len.toNat + 2) = t.tx.map TxBeat.data →
    u.proto[k]? = some s.curp → (∀ j q, j < k → u.proto[j]? = some q → attempt u q = none) →
    ToldApart s.curp s.curp.pulseLength.toNat u.tol.toNat →
    ∃ raw, exec .decode u =
        .next { u with
          value := BitVec.ofNat 32 (code.toNat % 2 ^ len.toNat), bitlen := len, protoid := BitVec.ofNat 8 (k + 1),
          delay := s.curp.pulseLength.setWidth 32, raw := raw, avail := true, rsp := okRsp 1, tx := [] } ∧
      (∀ j < 2 * len.toNat, raw[j + 2]? = (t.tx[j]?).map TxBeat.data) ∧
      (∀ c < 2, raw[c]? = (t.tx[2 * len.toNat + c]?).map TxBeat.data)

/-! Holder commands (spec/43_holder.md). -/

/-- R170. -/
def Obligations.AvailReportsFlag : Prop :=
  FormatZ 0x40 .avail ∧
  ∀ s : State, exec .avail s = .next { s with rsp := okRsp (if s.avail then 1 else 0), tx := [] }

/-- R171. -/
def Obligations.RstavailClearsFlagOnly : Prop :=
  FormatZ 0x41 .rstavail ∧
  ∀ s : State, exec .rstavail s = .next { s with avail := false, rsp := okRsp 0, tx := [] }

/-- R172 to R175, R178: each accessor responds `OK` with its field, zero-extended, whatever the flag. -/
def Obligations.AccessorsProjectHolder : Prop :=
  FormatZ 0x42 .getval ∧ FormatZ 0x43 .getlen ∧ FormatZ 0x44 .getdly ∧ FormatZ 0x45 .getproto ∧
  ∀ s : State,
    exec .getval s = .next { s with rsp := okRsp (BitVec.ofNat 72 s.value.toNat), tx := [] } ∧
    exec .getlen s = .next { s with rsp := okRsp (BitVec.ofNat 72 s.bitlen.toNat), tx := [] } ∧
    exec .getdly s = .next { s with rsp := okRsp (BitVec.ofNat 72 s.delay.toNat), tx := [] } ∧
    exec .getproto s = .next { s with rsp := okRsp (BitVec.ofNat 72 s.protoid.toNat), tx := [] }

/-- R176. -/
def Obligations.GetrawReadsEntry : Prop :=
  FormatB 0x46 .getraw ∧
  (∀ (s : State) (idx : Byte) (j : Fin 67), idx.toNat = j.val →
    exec (.getraw idx) s = .next { s with rsp := okRsp (BitVec.ofNat 72 s.raw[j].toNat), tx := [] }) ∧
  (∀ (s : State) (idx : Byte), 66 < idx.toNat →
    exec (.getraw idx) s = .next { s with rsp := errRsp .invalidArgument, tx := [] })

/-- R177. -/
def Obligations.GetcfgReadsConfiguration : Prop :=
  FormatZ 0x47 .getcfg ∧
  ∀ s : State, ∃ d : Payload, exec .getcfg s = .next { s with rsp := okRsp d, tx := [] } ∧
    d.extractLsb' 0 8 = s.repeatCnt ∧ d.extractLsb' 8 8 = s.tol ∧ d.extractLsb' 16 7 = s.capcnt ∧
    d.getLsbD 23 = false ∧ d.getLsbD 24 = s.capovf ∧ d.getLsbD 25 = s.avail ∧ d.extractLsb' 26 46 = 0

/-! Errors (spec/60_exceptions.md). -/

/-- R190, R198: every command answers with the status the table gives it in that state, and one response only. -/
def Obligations.StatusAsTabled : Prop :=
  ∀ (i : Instr) (s t : State), exec i s = .next t → t.rsp.map Response.status = some (tabledStatus i s)

/-- R197: a command that raises an error leaves the registers as they were and the stream idle, but for `CAPPUSH` on a full
buffer, which sets `CAPOVF` and nothing else. -/
def Obligations.ErrorsHaveNoPartialEffect : Prop :=
  ∀ (i : Instr) (s t : State) (e : Status) (d : Payload), exec i s = .next t →
    t.rsp = some { status := e, data := d } → e ≠ .ok →
    d = 0 ∧
    (t = { s with rsp := errRsp e, tx := [] } ∨
      ((∃ x, i = .cappush x) ∧ s.capcnt.toNat = 67 ∧ e = .captureOverflow ∧
        t = { s with capovf := true, rsp := errRsp e, tx := [] }))

/-! The whole machine. -/

/-- R29, R221: the state after reset, for the machine's own table. -/
def Obligations.ResetStateAsStated : Prop :=
  ResetValues Config.protoTable.records State.reset ∧ availPin State.reset = false ∧ cmdReady State.reset = true ∧
  rspValid State.reset = false ∧ txValid State.reset = false

/-- R5, R13 to R24: the reset state satisfies the invariant, whatever legal table the machine has. -/
def Obligations.ResetStateIsLegal : Prop :=
  Legal State.reset ∧ ∀ table : List Protocol, legalTable table = true → Legal (State.resetWith table)

/-- R13 to R24, R26: every step keeps every register at its legal values, the Holder coherent and the ports well formed. -/
def Obligations.StepKeepsLegal : Prop :=
  ∀ s t : State, Legal s → step s = .next t → Legal t

/-- R77, R227, R233: every step of every state has a next state: every command word has its outcome, and the block never
stops. -/
def Obligations.EveryStepAnswersNext : Prop :=
  ∀ s : State, ∃ t, step s = .next t

/-- R26: which commands can change which register. -/
def Obligations.RegistersWrittenAsTabled : Prop :=
  ∀ (i : Instr) (s t : State), exec i s = .next t →
    t.proto = s.proto ∧ t.inputs = s.inputs ∧
    (t.curp ≠ s.curp → writesCurp i = true) ∧
    (t.repeatCnt ≠ s.repeatCnt → ∃ r, i = .setrep r) ∧
    (t.tol ≠ s.tol → ∃ x, i = .settol x) ∧
    (t.cap ≠ s.cap → ∃ d, i = .cappush d) ∧
    (t.capcnt ≠ s.capcnt → (∃ d, i = .cappush d) ∨ i = .capclr) ∧
    (t.capovf ≠ s.capovf → (∃ d, i = .cappush d) ∨ i = .capclr) ∧
    (¬ SameHolder s t → i = .decode ∧ t.rsp = okRsp 1) ∧
    (t.avail ≠ s.avail → (i = .decode ∧ t.rsp = okRsp 1 ∧ t.avail = true) ∨ (i = .rstavail ∧ t.avail = false))

/-- R12: no step writes the Protocol Table. -/
def Obligations.ProtocolTableNeverWritten : Prop :=
  ∀ s t : State, step s = .next t → t.proto = s.proto

/-- R24, R179: over a step, the flag rises only in a publish and falls only by `RSTAVAIL` or a reset. -/
def Obligations.AvailLatchesUntilCleared : Prop :=
  ∀ s t : State, step s = .next t →
    (s.avail = false → t.avail = true →
      ∃ w rest, s.inputs = .command w :: rest ∧ decode w = .ok .decode ∧ t.rsp = okRsp 1) ∧
    (s.avail = true → t.avail = false →
      ∃ e rest, s.inputs = e :: rest ∧
        ((∃ w, e = .command w ∧ decode w = .ok .rstavail) ∨ e = .reset ∨ ∃ w, e = .resetDuring w))

/-- R17, R200: over a step, a capture overflow is forgotten only by `CAPCLR` or a reset. -/
def Obligations.OverflowStaysUntilCleared : Prop :=
  ∀ s t : State, step s = .next t → s.capovf = true → t.capovf = false →
    ∃ e rest, s.inputs = e :: rest ∧
      ((∃ w, e = .command w ∧ decode w = .ok .capclr) ∨ e = .reset ∨ ∃ w, e = .resetDuring w)

/-- R220 to R222: a reset leaves the reset state, no response and an idle stream. -/
def Obligations.ResetInputRestoresReset : Prop :=
  ∀ (s : State) (rest : List PortInput), s.inputs = .reset :: rest →
    ∃ t, step s = .next t ∧ ResetValues s.proto t ∧ t.rsp = none ∧ t.tx = [] ∧ t.inputs = rest

/-- R220, U14: a reset while a command executes leaves the reset state and no response, and what was already on the stream
is a part of the command's whole stream that stops without `tx_last`. That the part is never the whole is the model's
reading of R220 beside U14 (notes/assumptions/7.md). -/
def Obligations.AbandonedCommandLeavesReset : Prop :=
  ∀ (s t0 : State) (w : CmdWord) (rest : List PortInput), s.inputs = .resetDuring w :: rest →
    step { s with inputs := .command w :: rest } = .next t0 →
    ∃ t n, step s = .next t ∧ ResetValues s.proto t ∧ t.rsp = none ∧ t.inputs = rest ∧
      t.tx = t0.tx.take n ∧ ∀ b ∈ t.tx, b.last = false

/-- R205: with nothing at its inputs the block is idle and holds its state. That a step is taken then at all is the
model's choice (notes/assumptions/4.md). -/
def Obligations.IdleBlockHoldsState : Prop :=
  ∀ s : State, s.inputs = [] → step s = .next { s with rsp := none, tx := [] }
end

