-- ==== Sys2Proof/Laws/State.lean ====
section
/-! SUPPORT. Every field after every update of the state: true by rfl, so that no proof unfolds a record update. -/

namespace Sys2Proof.Machine

/-! `respond` -/
@[simp] theorem respond_proto (d : Payload) (s : State) : (respond d s).proto = s.proto := rfl
@[simp] theorem respond_curp (d : Payload) (s : State) : (respond d s).curp = s.curp := rfl
@[simp] theorem respond_repeatCnt (d : Payload) (s : State) : (respond d s).repeatCnt = s.repeatCnt := rfl
@[simp] theorem respond_tol (d : Payload) (s : State) : (respond d s).tol = s.tol := rfl
@[simp] theorem respond_cap (d : Payload) (s : State) : (respond d s).cap = s.cap := rfl
@[simp] theorem respond_capcnt (d : Payload) (s : State) : (respond d s).capcnt = s.capcnt := rfl
@[simp] theorem respond_capovf (d : Payload) (s : State) : (respond d s).capovf = s.capovf := rfl
@[simp] theorem respond_value (d : Payload) (s : State) : (respond d s).value = s.value := rfl
@[simp] theorem respond_bitlen (d : Payload) (s : State) : (respond d s).bitlen = s.bitlen := rfl
@[simp] theorem respond_protoid (d : Payload) (s : State) : (respond d s).protoid = s.protoid := rfl
@[simp] theorem respond_delay (d : Payload) (s : State) : (respond d s).delay = s.delay := rfl
@[simp] theorem respond_raw (d : Payload) (s : State) : (respond d s).raw = s.raw := rfl
@[simp] theorem respond_avail (d : Payload) (s : State) : (respond d s).avail = s.avail := rfl
@[simp] theorem respond_inputs (d : Payload) (s : State) : (respond d s).inputs = s.inputs := rfl
@[simp] theorem respond_rsp (d : Payload) (s : State) : (respond d s).rsp = some ⟨.ok, d⟩ := rfl
@[simp] theorem respond_tx (d : Payload) (s : State) : (respond d s).tx = [] := rfl
@[simp] theorem respond_freeCtr (d : Payload) (s : State) : (respond d s).freeCtr = s.freeCtr := rfl

/-! `raiseError` -/
@[simp] theorem raiseError_proto (e : Status) (s : State) : (raiseError e s).proto = s.proto := rfl
@[simp] theorem raiseError_curp (e : Status) (s : State) : (raiseError e s).curp = s.curp := rfl
@[simp] theorem raiseError_repeatCnt (e : Status) (s : State) : (raiseError e s).repeatCnt = s.repeatCnt := rfl
@[simp] theorem raiseError_tol (e : Status) (s : State) : (raiseError e s).tol = s.tol := rfl
@[simp] theorem raiseError_cap (e : Status) (s : State) : (raiseError e s).cap = s.cap := rfl
@[simp] theorem raiseError_capcnt (e : Status) (s : State) : (raiseError e s).capcnt = s.capcnt := rfl
@[simp] theorem raiseError_capovf (e : Status) (s : State) : (raiseError e s).capovf = s.capovf := rfl
@[simp] theorem raiseError_value (e : Status) (s : State) : (raiseError e s).value = s.value := rfl
@[simp] theorem raiseError_bitlen (e : Status) (s : State) : (raiseError e s).bitlen = s.bitlen := rfl
@[simp] theorem raiseError_protoid (e : Status) (s : State) : (raiseError e s).protoid = s.protoid := rfl
@[simp] theorem raiseError_delay (e : Status) (s : State) : (raiseError e s).delay = s.delay := rfl
@[simp] theorem raiseError_raw (e : Status) (s : State) : (raiseError e s).raw = s.raw := rfl
@[simp] theorem raiseError_avail (e : Status) (s : State) : (raiseError e s).avail = s.avail := rfl
@[simp] theorem raiseError_inputs (e : Status) (s : State) : (raiseError e s).inputs = s.inputs := rfl
@[simp] theorem raiseError_rsp (e : Status) (s : State) : (raiseError e s).rsp = some ⟨e, 0⟩ := rfl
@[simp] theorem raiseError_tx (e : Status) (s : State) : (raiseError e s).tx = [] := rfl
@[simp] theorem raiseError_freeCtr (e : Status) (s : State) : (raiseError e s).freeCtr = s.freeCtr := rfl

/-! `respondTx` -/
@[simp] theorem respondTx_proto (seq : List Duration) (s : State) : (respondTx seq s).proto = s.proto := rfl
@[simp] theorem respondTx_curp (seq : List Duration) (s : State) : (respondTx seq s).curp = s.curp := rfl
@[simp] theorem respondTx_repeatCnt (seq : List Duration) (s : State) : (respondTx seq s).repeatCnt = s.repeatCnt := rfl
@[simp] theorem respondTx_tol (seq : List Duration) (s : State) : (respondTx seq s).tol = s.tol := rfl
@[simp] theorem respondTx_cap (seq : List Duration) (s : State) : (respondTx seq s).cap = s.cap := rfl
@[simp] theorem respondTx_capcnt (seq : List Duration) (s : State) : (respondTx seq s).capcnt = s.capcnt := rfl
@[simp] theorem respondTx_capovf (seq : List Duration) (s : State) : (respondTx seq s).capovf = s.capovf := rfl
@[simp] theorem respondTx_value (seq : List Duration) (s : State) : (respondTx seq s).value = s.value := rfl
@[simp] theorem respondTx_bitlen (seq : List Duration) (s : State) : (respondTx seq s).bitlen = s.bitlen := rfl
@[simp] theorem respondTx_protoid (seq : List Duration) (s : State) : (respondTx seq s).protoid = s.protoid := rfl
@[simp] theorem respondTx_delay (seq : List Duration) (s : State) : (respondTx seq s).delay = s.delay := rfl
@[simp] theorem respondTx_raw (seq : List Duration) (s : State) : (respondTx seq s).raw = s.raw := rfl
@[simp] theorem respondTx_avail (seq : List Duration) (s : State) : (respondTx seq s).avail = s.avail := rfl
@[simp] theorem respondTx_inputs (seq : List Duration) (s : State) : (respondTx seq s).inputs = s.inputs := rfl
@[simp] theorem respondTx_rsp (seq : List Duration) (s : State) : (respondTx seq s).rsp = some ⟨.ok, BitVec.ofNat 72 seq.length⟩ := rfl
@[simp] theorem respondTx_tx (seq : List Duration) (s : State) : (respondTx seq s).tx = beats seq := rfl
@[simp] theorem respondTx_freeCtr (seq : List Duration) (s : State) : (respondTx seq s).freeCtr = s.freeCtr := rfl

/-! `setCurp` -/
@[simp] theorem setCurp_proto (p : Protocol) (s : State) : (setCurp p s).proto = s.proto := rfl
@[simp] theorem setCurp_curp (p : Protocol) (s : State) : (setCurp p s).curp = p := rfl
@[simp] theorem setCurp_repeatCnt (p : Protocol) (s : State) : (setCurp p s).repeatCnt = s.repeatCnt := rfl
@[simp] theorem setCurp_tol (p : Protocol) (s : State) : (setCurp p s).tol = s.tol := rfl
@[simp] theorem setCurp_cap (p : Protocol) (s : State) : (setCurp p s).cap = s.cap := rfl
@[simp] theorem setCurp_capcnt (p : Protocol) (s : State) : (setCurp p s).capcnt = s.capcnt := rfl
@[simp] theorem setCurp_capovf (p : Protocol) (s : State) : (setCurp p s).capovf = s.capovf := rfl
@[simp] theorem setCurp_value (p : Protocol) (s : State) : (setCurp p s).value = s.value := rfl
@[simp] theorem setCurp_bitlen (p : Protocol) (s : State) : (setCurp p s).bitlen = s.bitlen := rfl
@[simp] theorem setCurp_protoid (p : Protocol) (s : State) : (setCurp p s).protoid = s.protoid := rfl
@[simp] theorem setCurp_delay (p : Protocol) (s : State) : (setCurp p s).delay = s.delay := rfl
@[simp] theorem setCurp_raw (p : Protocol) (s : State) : (setCurp p s).raw = s.raw := rfl
@[simp] theorem setCurp_avail (p : Protocol) (s : State) : (setCurp p s).avail = s.avail := rfl
@[simp] theorem setCurp_inputs (p : Protocol) (s : State) : (setCurp p s).inputs = s.inputs := rfl
@[simp] theorem setCurp_rsp (p : Protocol) (s : State) : (setCurp p s).rsp = s.rsp := rfl
@[simp] theorem setCurp_tx (p : Protocol) (s : State) : (setCurp p s).tx = s.tx := rfl
@[simp] theorem setCurp_freeCtr (p : Protocol) (s : State) : (setCurp p s).freeCtr = s.freeCtr := rfl

/-! `setCurpPulse` -/
@[simp] theorem setCurpPulse_proto (pl16 : BitVec 16) (s : State) : (setCurpPulse pl16 s).proto = s.proto := rfl
@[simp] theorem setCurpPulse_curp (pl16 : BitVec 16) (s : State) : (setCurpPulse pl16 s).curp = { s.curp with pulseLength := pl16 } := rfl
@[simp] theorem setCurpPulse_repeatCnt (pl16 : BitVec 16) (s : State) : (setCurpPulse pl16 s).repeatCnt = s.repeatCnt := rfl
@[simp] theorem setCurpPulse_tol (pl16 : BitVec 16) (s : State) : (setCurpPulse pl16 s).tol = s.tol := rfl
@[simp] theorem setCurpPulse_cap (pl16 : BitVec 16) (s : State) : (setCurpPulse pl16 s).cap = s.cap := rfl
@[simp] theorem setCurpPulse_capcnt (pl16 : BitVec 16) (s : State) : (setCurpPulse pl16 s).capcnt = s.capcnt := rfl
@[simp] theorem setCurpPulse_capovf (pl16 : BitVec 16) (s : State) : (setCurpPulse pl16 s).capovf = s.capovf := rfl
@[simp] theorem setCurpPulse_value (pl16 : BitVec 16) (s : State) : (setCurpPulse pl16 s).value = s.value := rfl
@[simp] theorem setCurpPulse_bitlen (pl16 : BitVec 16) (s : State) : (setCurpPulse pl16 s).bitlen = s.bitlen := rfl
@[simp] theorem setCurpPulse_protoid (pl16 : BitVec 16) (s : State) : (setCurpPulse pl16 s).protoid = s.protoid := rfl
@[simp] theorem setCurpPulse_delay (pl16 : BitVec 16) (s : State) : (setCurpPulse pl16 s).delay = s.delay := rfl
@[simp] theorem setCurpPulse_raw (pl16 : BitVec 16) (s : State) : (setCurpPulse pl16 s).raw = s.raw := rfl
@[simp] theorem setCurpPulse_avail (pl16 : BitVec 16) (s : State) : (setCurpPulse pl16 s).avail = s.avail := rfl
@[simp] theorem setCurpPulse_inputs (pl16 : BitVec 16) (s : State) : (setCurpPulse pl16 s).inputs = s.inputs := rfl
@[simp] theorem setCurpPulse_rsp (pl16 : BitVec 16) (s : State) : (setCurpPulse pl16 s).rsp = s.rsp := rfl
@[simp] theorem setCurpPulse_tx (pl16 : BitVec 16) (s : State) : (setCurpPulse pl16 s).tx = s.tx := rfl
@[simp] theorem setCurpPulse_freeCtr (pl16 : BitVec 16) (s : State) : (setCurpPulse pl16 s).freeCtr = s.freeCtr := rfl

/-! `setRepeat` -/
@[simp] theorem setRepeat_proto (r : Byte) (s : State) : (setRepeat r s).proto = s.proto := rfl
@[simp] theorem setRepeat_curp (r : Byte) (s : State) : (setRepeat r s).curp = s.curp := rfl
@[simp] theorem setRepeat_repeatCnt (r : Byte) (s : State) : (setRepeat r s).repeatCnt = r := rfl
@[simp] theorem setRepeat_tol (r : Byte) (s : State) : (setRepeat r s).tol = s.tol := rfl
@[simp] theorem setRepeat_cap (r : Byte) (s : State) : (setRepeat r s).cap = s.cap := rfl
@[simp] theorem setRepeat_capcnt (r : Byte) (s : State) : (setRepeat r s).capcnt = s.capcnt := rfl
@[simp] theorem setRepeat_capovf (r : Byte) (s : State) : (setRepeat r s).capovf = s.capovf := rfl
@[simp] theorem setRepeat_value (r : Byte) (s : State) : (setRepeat r s).value = s.value := rfl
@[simp] theorem setRepeat_bitlen (r : Byte) (s : State) : (setRepeat r s).bitlen = s.bitlen := rfl
@[simp] theorem setRepeat_protoid (r : Byte) (s : State) : (setRepeat r s).protoid = s.protoid := rfl
@[simp] theorem setRepeat_delay (r : Byte) (s : State) : (setRepeat r s).delay = s.delay := rfl
@[simp] theorem setRepeat_raw (r : Byte) (s : State) : (setRepeat r s).raw = s.raw := rfl
@[simp] theorem setRepeat_avail (r : Byte) (s : State) : (setRepeat r s).avail = s.avail := rfl
@[simp] theorem setRepeat_inputs (r : Byte) (s : State) : (setRepeat r s).inputs = s.inputs := rfl
@[simp] theorem setRepeat_rsp (r : Byte) (s : State) : (setRepeat r s).rsp = s.rsp := rfl
@[simp] theorem setRepeat_tx (r : Byte) (s : State) : (setRepeat r s).tx = s.tx := rfl
@[simp] theorem setRepeat_freeCtr (r : Byte) (s : State) : (setRepeat r s).freeCtr = s.freeCtr := rfl

/-! `setTol` -/
@[simp] theorem setTol_proto (t : Byte) (s : State) : (setTol t s).proto = s.proto := rfl
@[simp] theorem setTol_curp (t : Byte) (s : State) : (setTol t s).curp = s.curp := rfl
@[simp] theorem setTol_repeatCnt (t : Byte) (s : State) : (setTol t s).repeatCnt = s.repeatCnt := rfl
@[simp] theorem setTol_tol (t : Byte) (s : State) : (setTol t s).tol = t := rfl
@[simp] theorem setTol_cap (t : Byte) (s : State) : (setTol t s).cap = s.cap := rfl
@[simp] theorem setTol_capcnt (t : Byte) (s : State) : (setTol t s).capcnt = s.capcnt := rfl
@[simp] theorem setTol_capovf (t : Byte) (s : State) : (setTol t s).capovf = s.capovf := rfl
@[simp] theorem setTol_value (t : Byte) (s : State) : (setTol t s).value = s.value := rfl
@[simp] theorem setTol_bitlen (t : Byte) (s : State) : (setTol t s).bitlen = s.bitlen := rfl
@[simp] theorem setTol_protoid (t : Byte) (s : State) : (setTol t s).protoid = s.protoid := rfl
@[simp] theorem setTol_delay (t : Byte) (s : State) : (setTol t s).delay = s.delay := rfl
@[simp] theorem setTol_raw (t : Byte) (s : State) : (setTol t s).raw = s.raw := rfl
@[simp] theorem setTol_avail (t : Byte) (s : State) : (setTol t s).avail = s.avail := rfl
@[simp] theorem setTol_inputs (t : Byte) (s : State) : (setTol t s).inputs = s.inputs := rfl
@[simp] theorem setTol_rsp (t : Byte) (s : State) : (setTol t s).rsp = s.rsp := rfl
@[simp] theorem setTol_tx (t : Byte) (s : State) : (setTol t s).tx = s.tx := rfl
@[simp] theorem setTol_freeCtr (t : Byte) (s : State) : (setTol t s).freeCtr = s.freeCtr := rfl

/-! `clearCapture` -/
@[simp] theorem clearCapture_proto (s : State) : (clearCapture s).proto = s.proto := rfl
@[simp] theorem clearCapture_curp (s : State) : (clearCapture s).curp = s.curp := rfl
@[simp] theorem clearCapture_repeatCnt (s : State) : (clearCapture s).repeatCnt = s.repeatCnt := rfl
@[simp] theorem clearCapture_tol (s : State) : (clearCapture s).tol = s.tol := rfl
@[simp] theorem clearCapture_cap (s : State) : (clearCapture s).cap = s.cap := rfl
@[simp] theorem clearCapture_capcnt (s : State) : (clearCapture s).capcnt = 0 := rfl
@[simp] theorem clearCapture_capovf (s : State) : (clearCapture s).capovf = false := rfl
@[simp] theorem clearCapture_value (s : State) : (clearCapture s).value = s.value := rfl
@[simp] theorem clearCapture_bitlen (s : State) : (clearCapture s).bitlen = s.bitlen := rfl
@[simp] theorem clearCapture_protoid (s : State) : (clearCapture s).protoid = s.protoid := rfl
@[simp] theorem clearCapture_delay (s : State) : (clearCapture s).delay = s.delay := rfl
@[simp] theorem clearCapture_raw (s : State) : (clearCapture s).raw = s.raw := rfl
@[simp] theorem clearCapture_avail (s : State) : (clearCapture s).avail = s.avail := rfl
@[simp] theorem clearCapture_inputs (s : State) : (clearCapture s).inputs = s.inputs := rfl
@[simp] theorem clearCapture_rsp (s : State) : (clearCapture s).rsp = s.rsp := rfl
@[simp] theorem clearCapture_tx (s : State) : (clearCapture s).tx = s.tx := rfl
@[simp] theorem clearCapture_freeCtr (s : State) : (clearCapture s).freeCtr = s.freeCtr := rfl

/-! `pushCapture` -/
@[simp] theorem pushCapture_proto (d : Duration) (s : State) : (pushCapture d s).proto = s.proto := rfl
@[simp] theorem pushCapture_curp (d : Duration) (s : State) : (pushCapture d s).curp = s.curp := rfl
@[simp] theorem pushCapture_repeatCnt (d : Duration) (s : State) : (pushCapture d s).repeatCnt = s.repeatCnt := rfl
@[simp] theorem pushCapture_tol (d : Duration) (s : State) : (pushCapture d s).tol = s.tol := rfl
@[simp] theorem pushCapture_cap (d : Duration) (s : State) : (pushCapture d s).cap = s.cap.setIfInBounds s.capcnt.toNat d := rfl
@[simp] theorem pushCapture_capcnt (d : Duration) (s : State) : (pushCapture d s).capcnt = s.capcnt + 1 := rfl
@[simp] theorem pushCapture_capovf (d : Duration) (s : State) : (pushCapture d s).capovf = s.capovf := rfl
@[simp] theorem pushCapture_value (d : Duration) (s : State) : (pushCapture d s).value = s.value := rfl
@[simp] theorem pushCapture_bitlen (d : Duration) (s : State) : (pushCapture d s).bitlen = s.bitlen := rfl
@[simp] theorem pushCapture_protoid (d : Duration) (s : State) : (pushCapture d s).protoid = s.protoid := rfl
@[simp] theorem pushCapture_delay (d : Duration) (s : State) : (pushCapture d s).delay = s.delay := rfl
@[simp] theorem pushCapture_raw (d : Duration) (s : State) : (pushCapture d s).raw = s.raw := rfl
@[simp] theorem pushCapture_avail (d : Duration) (s : State) : (pushCapture d s).avail = s.avail := rfl
@[simp] theorem pushCapture_inputs (d : Duration) (s : State) : (pushCapture d s).inputs = s.inputs := rfl
@[simp] theorem pushCapture_rsp (d : Duration) (s : State) : (pushCapture d s).rsp = s.rsp := rfl
@[simp] theorem pushCapture_tx (d : Duration) (s : State) : (pushCapture d s).tx = s.tx := rfl
@[simp] theorem pushCapture_freeCtr (d : Duration) (s : State) : (pushCapture d s).freeCtr = s.freeCtr := rfl

/-! `publish` -/
@[simp] theorem publish_proto (v b i d : Nat) (raw : Vector Duration 67) (s : State) : (publish v b i d raw s).proto = s.proto := rfl
@[simp] theorem publish_curp (v b i d : Nat) (raw : Vector Duration 67) (s : State) : (publish v b i d raw s).curp = s.curp := rfl
@[simp] theorem publish_repeatCnt (v b i d : Nat) (raw : Vector Duration 67) (s : State) : (publish v b i d raw s).repeatCnt = s.repeatCnt := rfl
@[simp] theorem publish_tol (v b i d : Nat) (raw : Vector Duration 67) (s : State) : (publish v b i d raw s).tol = s.tol := rfl
@[simp] theorem publish_cap (v b i d : Nat) (raw : Vector Duration 67) (s : State) : (publish v b i d raw s).cap = s.cap := rfl
@[simp] theorem publish_capcnt (v b i d : Nat) (raw : Vector Duration 67) (s : State) : (publish v b i d raw s).capcnt = s.capcnt := rfl
@[simp] theorem publish_capovf (v b i d : Nat) (raw : Vector Duration 67) (s : State) : (publish v b i d raw s).capovf = s.capovf := rfl
@[simp] theorem publish_value (v b i d : Nat) (raw : Vector Duration 67) (s : State) : (publish v b i d raw s).value = BitVec.ofNat 32 v := rfl
@[simp] theorem publish_bitlen (v b i d : Nat) (raw : Vector Duration 67) (s : State) : (publish v b i d raw s).bitlen = BitVec.ofNat 8 b := rfl
@[simp] theorem publish_protoid (v b i d : Nat) (raw : Vector Duration 67) (s : State) : (publish v b i d raw s).protoid = BitVec.ofNat 8 i := rfl
@[simp] theorem publish_delay (v b i d : Nat) (raw : Vector Duration 67) (s : State) : (publish v b i d raw s).delay = BitVec.ofNat 32 d := rfl
@[simp] theorem publish_raw (v b i d : Nat) (raw : Vector Duration 67) (s : State) : (publish v b i d raw s).raw = raw := rfl
@[simp] theorem publish_avail (v b i d : Nat) (raw : Vector Duration 67) (s : State) : (publish v b i d raw s).avail = true := rfl
@[simp] theorem publish_inputs (v b i d : Nat) (raw : Vector Duration 67) (s : State) : (publish v b i d raw s).inputs = s.inputs := rfl
@[simp] theorem publish_rsp (v b i d : Nat) (raw : Vector Duration 67) (s : State) : (publish v b i d raw s).rsp = s.rsp := rfl
@[simp] theorem publish_tx (v b i d : Nat) (raw : Vector Duration 67) (s : State) : (publish v b i d raw s).tx = s.tx := rfl
@[simp] theorem publish_freeCtr (v b i d : Nat) (raw : Vector Duration 67) (s : State) : (publish v b i d raw s).freeCtr = s.freeCtr := rfl

/-! `clearAvail` -/
@[simp] theorem clearAvail_proto (s : State) : (clearAvail s).proto = s.proto := rfl
@[simp] theorem clearAvail_curp (s : State) : (clearAvail s).curp = s.curp := rfl
@[simp] theorem clearAvail_repeatCnt (s : State) : (clearAvail s).repeatCnt = s.repeatCnt := rfl
@[simp] theorem clearAvail_tol (s : State) : (clearAvail s).tol = s.tol := rfl
@[simp] theorem clearAvail_cap (s : State) : (clearAvail s).cap = s.cap := rfl
@[simp] theorem clearAvail_capcnt (s : State) : (clearAvail s).capcnt = s.capcnt := rfl
@[simp] theorem clearAvail_capovf (s : State) : (clearAvail s).capovf = s.capovf := rfl
@[simp] theorem clearAvail_value (s : State) : (clearAvail s).value = s.value := rfl
@[simp] theorem clearAvail_bitlen (s : State) : (clearAvail s).bitlen = s.bitlen := rfl
@[simp] theorem clearAvail_protoid (s : State) : (clearAvail s).protoid = s.protoid := rfl
@[simp] theorem clearAvail_delay (s : State) : (clearAvail s).delay = s.delay := rfl
@[simp] theorem clearAvail_raw (s : State) : (clearAvail s).raw = s.raw := rfl
@[simp] theorem clearAvail_avail (s : State) : (clearAvail s).avail = false := rfl
@[simp] theorem clearAvail_inputs (s : State) : (clearAvail s).inputs = s.inputs := rfl
@[simp] theorem clearAvail_rsp (s : State) : (clearAvail s).rsp = s.rsp := rfl
@[simp] theorem clearAvail_tx (s : State) : (clearAvail s).tx = s.tx := rfl
@[simp] theorem clearAvail_freeCtr (s : State) : (clearAvail s).freeCtr = s.freeCtr := rfl

/-! `setCapovf` -/
@[simp] theorem setCapovf_proto (s : State) : (setCapovf s).proto = s.proto := rfl
@[simp] theorem setCapovf_curp (s : State) : (setCapovf s).curp = s.curp := rfl
@[simp] theorem setCapovf_repeatCnt (s : State) : (setCapovf s).repeatCnt = s.repeatCnt := rfl
@[simp] theorem setCapovf_tol (s : State) : (setCapovf s).tol = s.tol := rfl
@[simp] theorem setCapovf_cap (s : State) : (setCapovf s).cap = s.cap := rfl
@[simp] theorem setCapovf_capcnt (s : State) : (setCapovf s).capcnt = s.capcnt := rfl
@[simp] theorem setCapovf_capovf (s : State) : (setCapovf s).capovf = true := rfl
@[simp] theorem setCapovf_value (s : State) : (setCapovf s).value = s.value := rfl
@[simp] theorem setCapovf_bitlen (s : State) : (setCapovf s).bitlen = s.bitlen := rfl
@[simp] theorem setCapovf_protoid (s : State) : (setCapovf s).protoid = s.protoid := rfl
@[simp] theorem setCapovf_delay (s : State) : (setCapovf s).delay = s.delay := rfl
@[simp] theorem setCapovf_raw (s : State) : (setCapovf s).raw = s.raw := rfl
@[simp] theorem setCapovf_avail (s : State) : (setCapovf s).avail = s.avail := rfl
@[simp] theorem setCapovf_inputs (s : State) : (setCapovf s).inputs = s.inputs := rfl
@[simp] theorem setCapovf_rsp (s : State) : (setCapovf s).rsp = s.rsp := rfl
@[simp] theorem setCapovf_tx (s : State) : (setCapovf s).tx = s.tx := rfl
@[simp] theorem setCapovf_freeCtr (s : State) : (setCapovf s).freeCtr = s.freeCtr := rfl

/-! `withInputs` -/
@[simp] theorem withInputs_proto (rest : List PortInput) (s : State) : (withInputs rest s).proto = s.proto := rfl
@[simp] theorem withInputs_curp (rest : List PortInput) (s : State) : (withInputs rest s).curp = s.curp := rfl
@[simp] theorem withInputs_repeatCnt (rest : List PortInput) (s : State) : (withInputs rest s).repeatCnt = s.repeatCnt := rfl
@[simp] theorem withInputs_tol (rest : List PortInput) (s : State) : (withInputs rest s).tol = s.tol := rfl
@[simp] theorem withInputs_cap (rest : List PortInput) (s : State) : (withInputs rest s).cap = s.cap := rfl
@[simp] theorem withInputs_capcnt (rest : List PortInput) (s : State) : (withInputs rest s).capcnt = s.capcnt := rfl
@[simp] theorem withInputs_capovf (rest : List PortInput) (s : State) : (withInputs rest s).capovf = s.capovf := rfl
@[simp] theorem withInputs_value (rest : List PortInput) (s : State) : (withInputs rest s).value = s.value := rfl
@[simp] theorem withInputs_bitlen (rest : List PortInput) (s : State) : (withInputs rest s).bitlen = s.bitlen := rfl
@[simp] theorem withInputs_protoid (rest : List PortInput) (s : State) : (withInputs rest s).protoid = s.protoid := rfl
@[simp] theorem withInputs_delay (rest : List PortInput) (s : State) : (withInputs rest s).delay = s.delay := rfl
@[simp] theorem withInputs_raw (rest : List PortInput) (s : State) : (withInputs rest s).raw = s.raw := rfl
@[simp] theorem withInputs_avail (rest : List PortInput) (s : State) : (withInputs rest s).avail = s.avail := rfl
@[simp] theorem withInputs_inputs (rest : List PortInput) (s : State) : (withInputs rest s).inputs = rest := rfl
@[simp] theorem withInputs_rsp (rest : List PortInput) (s : State) : (withInputs rest s).rsp = s.rsp := rfl
@[simp] theorem withInputs_tx (rest : List PortInput) (s : State) : (withInputs rest s).tx = s.tx := rfl
@[simp] theorem withInputs_freeCtr (rest : List PortInput) (s : State) : (withInputs rest s).freeCtr = s.freeCtr := rfl

/-! `presentWord` -/
@[simp] theorem presentWord_proto (w : CmdWord) (s : State) : (presentWord w s).proto = s.proto := rfl
@[simp] theorem presentWord_curp (w : CmdWord) (s : State) : (presentWord w s).curp = s.curp := rfl
@[simp] theorem presentWord_repeatCnt (w : CmdWord) (s : State) : (presentWord w s).repeatCnt = s.repeatCnt := rfl
@[simp] theorem presentWord_tol (w : CmdWord) (s : State) : (presentWord w s).tol = s.tol := rfl
@[simp] theorem presentWord_cap (w : CmdWord) (s : State) : (presentWord w s).cap = s.cap := rfl
@[simp] theorem presentWord_capcnt (w : CmdWord) (s : State) : (presentWord w s).capcnt = s.capcnt := rfl
@[simp] theorem presentWord_capovf (w : CmdWord) (s : State) : (presentWord w s).capovf = s.capovf := rfl
@[simp] theorem presentWord_value (w : CmdWord) (s : State) : (presentWord w s).value = s.value := rfl
@[simp] theorem presentWord_bitlen (w : CmdWord) (s : State) : (presentWord w s).bitlen = s.bitlen := rfl
@[simp] theorem presentWord_protoid (w : CmdWord) (s : State) : (presentWord w s).protoid = s.protoid := rfl
@[simp] theorem presentWord_delay (w : CmdWord) (s : State) : (presentWord w s).delay = s.delay := rfl
@[simp] theorem presentWord_raw (w : CmdWord) (s : State) : (presentWord w s).raw = s.raw := rfl
@[simp] theorem presentWord_avail (w : CmdWord) (s : State) : (presentWord w s).avail = s.avail := rfl
@[simp] theorem presentWord_inputs (w : CmdWord) (s : State) : (presentWord w s).inputs = .command w :: s.inputs := rfl
@[simp] theorem presentWord_rsp (w : CmdWord) (s : State) : (presentWord w s).rsp = s.rsp := rfl
@[simp] theorem presentWord_tx (w : CmdWord) (s : State) : (presentWord w s).tx = s.tx := rfl
@[simp] theorem presentWord_freeCtr (w : CmdWord) (s : State) : (presentWord w s).freeCtr = s.freeCtr := rfl

/-! `idle` -/
@[simp] theorem idle_proto (s : State) : (idle s).proto = s.proto := rfl
@[simp] theorem idle_curp (s : State) : (idle s).curp = s.curp := rfl
@[simp] theorem idle_repeatCnt (s : State) : (idle s).repeatCnt = s.repeatCnt := rfl
@[simp] theorem idle_tol (s : State) : (idle s).tol = s.tol := rfl
@[simp] theorem idle_cap (s : State) : (idle s).cap = s.cap := rfl
@[simp] theorem idle_capcnt (s : State) : (idle s).capcnt = s.capcnt := rfl
@[simp] theorem idle_capovf (s : State) : (idle s).capovf = s.capovf := rfl
@[simp] theorem idle_value (s : State) : (idle s).value = s.value := rfl
@[simp] theorem idle_bitlen (s : State) : (idle s).bitlen = s.bitlen := rfl
@[simp] theorem idle_protoid (s : State) : (idle s).protoid = s.protoid := rfl
@[simp] theorem idle_delay (s : State) : (idle s).delay = s.delay := rfl
@[simp] theorem idle_raw (s : State) : (idle s).raw = s.raw := rfl
@[simp] theorem idle_avail (s : State) : (idle s).avail = s.avail := rfl
@[simp] theorem idle_inputs (s : State) : (idle s).inputs = s.inputs := rfl
@[simp] theorem idle_rsp (s : State) : (idle s).rsp = none := rfl
@[simp] theorem idle_tx (s : State) : (idle s).tx = [] := rfl
@[simp] theorem idle_freeCtr (s : State) : (idle s).freeCtr = s.freeCtr := rfl

/-! `resetBlock` -/
@[simp] theorem resetBlock_proto (s : State) : (resetBlock s).proto = s.proto := rfl
@[simp] theorem resetBlock_curp (s : State) : (resetBlock s).curp = s.proto.headD ⟨0, ⟨0, 0⟩, ⟨0, 0⟩, ⟨0, 0⟩, false⟩ := rfl
@[simp] theorem resetBlock_repeatCnt (s : State) : (resetBlock s).repeatCnt = 10 := rfl
@[simp] theorem resetBlock_tol (s : State) : (resetBlock s).tol = 20 := rfl
@[simp] theorem resetBlock_cap (s : State) : (resetBlock s).cap = Vector.replicate 67 0 := rfl
@[simp] theorem resetBlock_capcnt (s : State) : (resetBlock s).capcnt = 0 := rfl
@[simp] theorem resetBlock_capovf (s : State) : (resetBlock s).capovf = false := rfl
@[simp] theorem resetBlock_value (s : State) : (resetBlock s).value = 0 := rfl
@[simp] theorem resetBlock_bitlen (s : State) : (resetBlock s).bitlen = 0 := rfl
@[simp] theorem resetBlock_protoid (s : State) : (resetBlock s).protoid = 0 := rfl
@[simp] theorem resetBlock_delay (s : State) : (resetBlock s).delay = 0 := rfl
@[simp] theorem resetBlock_raw (s : State) : (resetBlock s).raw = Vector.replicate 67 0 := rfl
@[simp] theorem resetBlock_avail (s : State) : (resetBlock s).avail = false := rfl
@[simp] theorem resetBlock_inputs (s : State) : (resetBlock s).inputs = s.inputs := rfl
@[simp] theorem resetBlock_rsp (s : State) : (resetBlock s).rsp = none := rfl
@[simp] theorem resetBlock_tx (s : State) : (resetBlock s).tx = [] := rfl
@[simp] theorem resetBlock_freeCtr (s : State) : (resetBlock s).freeCtr = s.freeCtr := rfl

/-! `abandon` -/
@[simp] theorem abandon_proto (full : List TxBeat) (s : State) : (abandon full s).proto = s.proto := rfl
@[simp] theorem abandon_curp (full : List TxBeat) (s : State) : (abandon full s).curp = s.proto.headD ⟨0, ⟨0, 0⟩, ⟨0, 0⟩, ⟨0, 0⟩, false⟩ := rfl
@[simp] theorem abandon_repeatCnt (full : List TxBeat) (s : State) : (abandon full s).repeatCnt = 10 := rfl
@[simp] theorem abandon_tol (full : List TxBeat) (s : State) : (abandon full s).tol = 20 := rfl
@[simp] theorem abandon_cap (full : List TxBeat) (s : State) : (abandon full s).cap = Vector.replicate 67 0 := rfl
@[simp] theorem abandon_capcnt (full : List TxBeat) (s : State) : (abandon full s).capcnt = 0 := rfl
@[simp] theorem abandon_capovf (full : List TxBeat) (s : State) : (abandon full s).capovf = false := rfl
@[simp] theorem abandon_value (full : List TxBeat) (s : State) : (abandon full s).value = 0 := rfl
@[simp] theorem abandon_bitlen (full : List TxBeat) (s : State) : (abandon full s).bitlen = 0 := rfl
@[simp] theorem abandon_protoid (full : List TxBeat) (s : State) : (abandon full s).protoid = 0 := rfl
@[simp] theorem abandon_delay (full : List TxBeat) (s : State) : (abandon full s).delay = 0 := rfl
@[simp] theorem abandon_raw (full : List TxBeat) (s : State) : (abandon full s).raw = Vector.replicate 67 0 := rfl
@[simp] theorem abandon_avail (full : List TxBeat) (s : State) : (abandon full s).avail = false := rfl
@[simp] theorem abandon_inputs (full : List TxBeat) (s : State) : (abandon full s).inputs = s.inputs := rfl
@[simp] theorem abandon_rsp (full : List TxBeat) (s : State) : (abandon full s).rsp = none := rfl
@[simp] theorem abandon_tx (full : List TxBeat) (s : State) : (abandon full s).tx = abandonedTx full (Config.freePrefix s.freeCtr) := rfl
@[simp] theorem abandon_freeCtr (full : List TxBeat) (s : State) : (abandon full s).freeCtr = s.freeCtr + 1 := rfl

end Sys2Proof.Machine
end

