-- ==== Sys2Proof/Laws/Ops.lean ====
section
/-! SUPPORT. For each operation the meanings share, what it does, said once. -/

namespace Sys2Proof.Machine

/-! The Protocol Table (R90). -/

/-- `protocolAt` answers a record exactly for the ids `1 .. N`, and it is `PROTO[id]`. -/
theorem protocolAt_eq_some_iff {s : State} {id : Byte} {p : Protocol} :
    protocolAt s id = some p ↔
      1 ≤ id.toNat ∧ ∃ h : id.toNat - 1 < s.proto.length, s.proto[id.toNat - 1] = p := by
  unfold protocolAt
  split
  · next h => simp [h]
  · next h => simp [List.getElem?_eq_some_iff, Nat.one_le_iff_ne_zero, h]

/-- `protocolAt` fails exactly outside `1 .. N`. -/
theorem protocolAt_eq_none_iff {s : State} {id : Byte} :
    protocolAt s id = none ↔ id.toNat = 0 ∨ s.proto.length < id.toNat := by
  unfold protocolAt
  split
  · next h => simp [h]
  · next h => simp only [List.getElem?_eq_none_iff, h, false_or]; omega

/-! The transmit stream (R76). -/

@[simp] theorem beats_length (l : List Duration) : (beats l).length = l.length := by
  induction l with
  | nil => rfl
  | cons d l ih => cases l with
    | nil => rfl
    | cons e l => simpa [beats] using ih

/-- The stream carries the sequence itself. -/
@[simp] theorem beats_data (l : List Duration) : (beats l).map TxBeat.data = l := by
  induction l with
  | nil => rfl
  | cons d l ih => cases l with
    | nil => rfl
    | cons e l => simpa [beats] using ih

/-- Beat `k` carries entry `k`, and is the last one exactly if no entry follows. -/
theorem beats_getElem {l : List Duration} {k : Nat} (h : k < l.length) :
    (beats l)[k]'(by simpa using h) = ⟨l[k], decide (k + 1 = l.length)⟩ := by
  induction l generalizing k with
  | nil => simp at h
  | cons d l ih =>
    cases l with
    | nil =>
      have : k = 0 := by simpa using h
      subst this; rfl
    | cons e l =>
      cases k with
      | zero => simp [beats]
      | succ k => simpa [beats] using ih (k := k) (by simpa using h)

/-! The capture buffer (R16, R132). -/

/-- A push writes the entry at `CAPCNT` and no other. -/
theorem pushCapture_getElem (d : Duration) (s : State) (j : Nat) (h : j < 67) :
    (pushCapture d s).cap[j] = if s.capcnt.toNat = j then d else s.cap[j] := by
  simp [pushCapture, Vector.getElem_setIfInBounds]

/-- The valid entries are the buffer's first `CAPCNT`, which are `CAPCNT` many in a legal state. -/
theorem captured_length {s : State} (h : s.capcnt.toNat ≤ 67) : (captured s).length = s.capcnt.toNat := by
  simp [captured, h]

theorem captured_getElem? (s : State) (j : Nat) (h : j < s.capcnt.toNat) : (captured s)[j]? = s.cap[j]? := by
  simp [captured, h]

/-! The Holder (R143). -/

/-- `RAW` after a rotation: the sync pair, the data entries, and zeros from `n` on. -/
theorem rotate_getElem (cap : List Duration) (n j : Nat) (h : j < 67) :
    (rotate cap n)[j] =
      if n ≤ j then 0
      else if j = 0 then cap.getD (n - 2) 0
      else if j = 1 then cap.getD (n - 1) 0
      else cap.getD (j - 2) 0 := by
  simp [rotate]

/-! Reset during a command (R220). -/

/-- An abandoned stream is a proper prefix of the whole one, or both are empty. -/
theorem abandonedTx_prefix (full : List TxBeat) (k : Nat) :
    ∃ n, abandonedTx full k = full.take n ∧ (full = [] ∨ n < full.length) := by
  refine ⟨k % full.length, rfl, ?_⟩
  cases full with
  | nil => exact .inl rfl
  | cons a l => exact .inr (Nat.mod_lt _ (by simp))

/-! One event at the inputs (R47, R71, R72, R77, R205, R220). -/

theorem runWord_of_ok {w : CmdWord} {i : Instr} (s : State) (h : decode w = .ok i) : runWord w s = exec i s := by
  simp [runWord, h]

theorem runWord_of_error {w : CmdWord} {e : DecodeReject} (s : State) (h : decode w = .error e) :
    runWord w s = .next (raiseError .illegalCommand s) := by
  simp [runWord, h]

theorem takeInput_nil {s : State} (h : s.inputs = []) : takeInput s = .next (idle s) := by
  simp [takeInput, h]

theorem takeInput_command {s : State} {w : CmdWord} {rest : List PortInput} (h : s.inputs = .command w :: rest) :
    takeInput s = runWord w (withInputs rest s) := by
  simp [takeInput, h]

theorem takeInput_reset {s : State} {rest : List PortInput} (h : s.inputs = .reset :: rest) :
    takeInput s = .next (resetBlock (withInputs rest s)) := by
  simp [takeInput, h]

theorem takeInput_resetDuring {s : State} {w : CmdWord} {rest : List PortInput}
    (h : s.inputs = .resetDuring w :: rest) : takeInput s = runAbandoned w (withInputs rest s) := by
  simp [takeInput, h]

theorem runAbandoned_of_next {w : CmdWord} {s t : State} (h : runWord w s = .next t) :
    runAbandoned w s = .next (abandon t.tx s) := by
  simp [runAbandoned, h]

end Sys2Proof.Machine
end

