-- ==== Sys2Proof/Laws/Encoder.lean ====
section
/-! SUPPORT. For each operation of the Pulse Encoder, what it does, said once. -/

namespace Sys2Proof.Machine

/-! Code words (R67, R111, R113, R115, R116). -/

/-- `0b11` is the one code that is no symbol. -/
theorem symbolOf_eq_none_iff (c : BitVec 2) : symbolOf c = none ↔ c = 3 := by
  revert c; decide

/-- A list of codes spells a word exactly if each code spells its symbol. -/
theorem symbolsOf_eq_some_iff {cs : List (BitVec 2)} {w : List Symbol} :
    symbolsOf cs = some w ↔ cs.map symbolOf = w.map some := by
  induction cs generalizing w with
  | nil => cases w <;> simp [symbolsOf]
  | cons c cs ih =>
    cases hc : symbolOf c with
    | none => cases w <;> simp [symbolsOf, hc]
    | some x =>
      cases hs : symbolsOf cs with
      | none =>
        have hn : ∀ v : List Symbol, cs.map symbolOf ≠ v.map some := fun v h => by rw [ih.mpr h] at hs; cases hs
        cases w with
        | nil => simp [symbolsOf, hc, hs]
        | cons y w => simp [symbolsOf, hc, hs, hn w]
      | some xs =>
        have hx := ih.mp hs
        cases w with
        | nil => simp [symbolsOf, hc, hs]
        | cons y w =>
          simp only [symbolsOf, hc, hs, hx, List.map_cons, Option.some.injEq, List.cons.injEq]
          exact and_congr_right fun _ => (List.map_inj_right fun _ _ h => Option.some.inj h).symm

/-- A list of codes spells no word exactly if it holds a code that is no symbol. -/
theorem symbolsOf_eq_none_iff {cs : List (BitVec 2)} : symbolsOf cs = none ↔ ∃ c ∈ cs, symbolOf c = none := by
  induction cs with
  | nil => simp [symbolsOf]
  | cons c cs ih =>
    cases hc : symbolOf c with
    | none => simp [symbolsOf, hc]
    | some x =>
      cases hs : symbolsOf cs with
      | none => simp only [symbolsOf, hc, hs, List.mem_cons, exists_eq_or_imp, reduceCtorEq, false_or, true_iff]; exact ih.mp hs
      | some xs =>
        have hn : ¬ ∃ c ∈ cs, symbolOf c = none := fun h => by rw [ih.mpr h] at hs; cases hs
        simp only [symbolsOf, hc, hs, List.mem_cons, exists_eq_or_imp, reduceCtorEq, false_or, false_iff]; exact hn

/-- The code word of `ENCT` is legal exactly under the four conditions of rule R115, and these are its bits. -/
theorem enctBits_eq_some_iff {nsym : Byte} {slots : BitVec 64} {bits : List Bool} :
    enctBits nsym slots = some bits ↔
      1 ≤ nsym.toNat ∧ nsym.toNat ≤ 32 ∧
      ∃ w, symbolsOf (usedSlots nsym.toNat slots) = some w ∧ (expandWord w).length ≤ 32 ∧ bits = expandWord w := by
  unfold enctBits
  cases hw : symbolsOf (usedSlots nsym.toNat slots) with
  | none => simp
  | some w =>
    by_cases h0 : nsym.toNat = 0
    · simp [h0]
    · by_cases h32 : 32 < nsym.toNat
      · simp [h32, Nat.not_le.mpr h32]
      · by_cases hl : 32 < (expandWord w).length
        · simp [h0, h32, hl, Nat.not_le.mpr hl]
        · simp [h0, h32, hl, Nat.le_of_not_lt, eq_comm]

@[simp] theorem codeBits_length (len : Nat) (code : BitVec 32) : (codeBits len code).length = len := by
  simp [codeBits]

/-- Bit `i` of the word is bit `len-1-i` of the code: the most significant first (R116). -/
theorem codeBits_getElem (len : Nat) (code : BitVec 32) (i : Nat) (h : i < (codeBits len code).length) :
    (codeBits len code)[i] = code.getLsbD (len - 1 - i) := by
  simp [codeBits]

/-- The code word of `ENCB` is legal exactly for the lengths 1 to 32 (R116). -/
theorem encbBits_eq_some_iff {len : Byte} {code : BitVec 32} {bits : List Bool} :
    encbBits len code = some bits ↔ 1 ≤ len.toNat ∧ len.toNat ≤ 32 ∧ bits = codeBits len.toNat code := by
  unfold encbBits
  by_cases h0 : len.toNat = 0
  · simp [h0]
  · by_cases h32 : 32 < len.toNat
    · simp [h32, Nat.not_le.mpr h32]
    · simp [h0, h32, Nat.le_of_not_lt, eq_comm]

/-- What an encode command leaves: the error, or the stream of its bits (R115, R116). -/
theorem encodeWord_none (s : State) : encodeWord none s = raiseError .invalidCodeWord s := rfl

theorem encodeWord_some (bits : List Bool) (s : State) :
    encodeWord (some bits) s = respondTx (encodeBits bits s.curp s.repeatCnt.toNat) s := rfl

/-! Durations (R110, R112, R117). -/

/-- A factor times a pulse length never wraps (R117). -/
@[simp] theorem scale_toNat (f : Byte) (pl : BitVec 16) : (scale f pl).toNat = f.toNat * pl.toNat := by
  have h : f.toNat * pl.toNat ≤ 255 * 65535 := Nat.mul_le_mul (by omega) (by omega)
  simp only [scale, BitVec.toNat_ofNat]
  omega

@[simp] theorem emitPair_length (hl : HighLow) (p : Protocol) : (emitPair hl p).length = 2 := by
  unfold emitPair; split <;> rfl

theorem dataEntries_length (bits : List Bool) (p : Protocol) :
    (bits.flatMap fun bit => emitPair (hlOf p bit) p).length = 2 * bits.length := by
  induction bits with
  | nil => rfl
  | cons b bits ih => simp only [List.flatMap_cons, List.length_append, ih, emitPair_length, List.length_cons]; omega

/-- One transmission has two entries a bit and two for the sync pair (R112). -/
@[simp] theorem oneTransmission_length (bits : List Bool) (p : Protocol) :
    (oneTransmission bits p).length = 2 * bits.length + 2 := by
  rw [oneTransmission, List.length_append, dataEntries_length, emitPair_length]

/-- Entries `2i` and `2i+1` of the data are the pair of bit `i` (R112). -/
theorem dataEntries_getElem? (bits : List Bool) (p : Protocol) (i c : Nat) (hi : i < bits.length) (hc : c < 2) :
    (bits.flatMap fun bit => emitPair (hlOf p bit) p)[2 * i + c]? = (emitPair (hlOf p bits[i]) p)[c]? := by
  induction bits generalizing i with
  | nil => simp at hi
  | cons b bits ih =>
    cases i with
    | zero => simp [List.flatMap_cons, List.getElem?_append, hc]
    | succ i =>
      have h := ih i (by simpa using hi)
      rw [List.flatMap_cons, List.getElem?_append_right (by simp; omega), emitPair_length,
        show 2 * (i + 1) + c - 2 = 2 * i + c by omega, h]
      simp

theorem oneTransmission_data (bits : List Bool) (p : Protocol) (i c : Nat) (hi : i < bits.length) (hc : c < 2) :
    (oneTransmission bits p)[2 * i + c]? = (emitPair (hlOf p bits[i]) p)[c]? := by
  rw [oneTransmission, List.getElem?_append_left (by rw [dataEntries_length]; omega), dataEntries_getElem? _ _ _ _ hi hc]

theorem oneTransmission_sync (bits : List Bool) (p : Protocol) (c : Nat) :
    (oneTransmission bits p)[2 * bits.length + c]? = (emitPair p.syncFactor p)[c]? := by
  rw [oneTransmission, List.getElem?_append_right (by rw [dataEntries_length]; omega), dataEntries_length,
    Nat.add_sub_cancel_left]

/-- The stream of `r` transmissions is `r` times as long as one (R112). -/
@[simp] theorem encodeBits_length (bits : List Bool) (p : Protocol) (r : Nat) :
    (encodeBits bits p r).length = r * (2 * bits.length + 2) := by
  simp [encodeBits, List.length_flatten]

/-- Entry `j` of transmission `k` is entry `j` of one transmission: they stand back to back (R112). -/
theorem encodeBits_getElem? (bits : List Bool) (p : Protocol) (r k j : Nat) (hk : k < r)
    (hj : j < 2 * bits.length + 2) :
    (encodeBits bits p r)[k * (2 * bits.length + 2) + j]? = (oneTransmission bits p)[j]? := by
  induction r generalizing k with
  | zero => omega
  | succ r ih =>
    have hcons : encodeBits bits p (r + 1) = oneTransmission bits p ++ encodeBits bits p r := by
      simp [encodeBits, List.replicate_succ]
    rw [hcons]
    cases k with
    | zero => rw [Nat.zero_mul, Nat.zero_add, List.getElem?_append_left (by simpa using hj)]
    | succ k =>
      rw [List.getElem?_append_right (by rw [oneTransmission_length, Nat.add_mul]; omega), oneTransmission_length,
        show (k + 1) * (2 * bits.length + 2) + j - (2 * bits.length + 2) = k * (2 * bits.length + 2) + j by
          rw [Nat.add_mul]; omega]
      exact ih k (by omega)

/-- One repeat is one transmission. -/
@[simp] theorem encodeBits_one (bits : List Bool) (p : Protocol) : encodeBits bits p 1 = oneTransmission bits p := by
  simp [encodeBits]

end Sys2Proof.Machine
end

