-- ==== Sys2Proof/Laws/Encoding.lean ====
section
/-! SUPPORT. What the fields of a command word and of a packed record are, once and for all. -/

namespace Sys2Proof

/-! A command word is its opcode and its payload (R61). -/

@[simp] theorem opField_append (op : Byte) (pl : Payload) : opField (op ++ pl) = op := by
  exact BitVec.extractLsb'_append_eq_left

@[simp] theorem plField_append (op : Byte) (pl : Payload) : plField (op ++ pl) = pl := by
  exact BitVec.extractLsb'_append_eq_right

@[simp] theorem opField_cmdWord (op : Byte) (pl : Payload) : opField (cmdWord op pl) = op := opField_append op pl

@[simp] theorem plField_cmdWord (op : Byte) (pl : Payload) : plField (cmdWord op pl) = pl := plField_append op pl

/-- A word is the word of its own fields. -/
theorem cmdWord_fields (w : CmdWord) : cmdWord (opField w) (plField w) = w :=
  BitVec.extractLsb'_append_extractLsb' (w := 8) (len := 72)

/-- Decoding a word reads its fields only (R61, R77). -/
@[simp] theorem decode_append (op : Byte) (pl : Payload) : decode (op ++ pl) = decodeFields op pl := by
  simp [decode]

@[simp] theorem decode_cmdWord (op : Byte) (pl : Payload) : decode (cmdWord op pl) = decodeFields op pl :=
  decode_append op pl

/-- What the check of the reserved bits can answer (R72). -/
theorem whenClear_eq_ok {op : Byte} {clear : Bool} {i j : Instr} :
    whenClear op clear i = .ok j ↔ clear = true ∧ i = j := by
  cases clear <;> simp [whenClear]

theorem reservedClear_eq_true {k : Nat} {pl : Payload} :
    reservedClear k pl = true ↔ pl.extractLsb' k (72 - k) = 0 := by
  simp [reservedClear]

/-! The payloads of the formats: reserved bits zero, operands where the format puts them (R62 to R67). -/

/-- An all-zero high part is what a format's clear reserved bits say of a payload (R72). -/
theorem payload_high_zero {k m : Nat} (hk : m + k = 72) (x : BitVec k) :
    ((0#m ++ x).cast hk).extractLsb' k (72 - k) = 0 := by
  apply BitVec.eq_of_getLsbD_eq
  intro i hi
  simp [BitVec.getLsbD_append, BitVec.getLsbD_extractLsb']

@[simp] theorem reservedClear_payloadZ : reservedClear 0 payloadZ = true := by decide

@[simp] theorem reservedClear_payloadB (x : Byte) : reservedClear 8 (payloadB x) = true := by
  simpa [reservedClear_eq_true, payloadB] using payload_high_zero (k := 8) (m := 64) rfl x

@[simp] theorem reservedClear_payloadH (x : BitVec 16) : reservedClear 16 (payloadH x) = true := by
  simpa [reservedClear_eq_true, payloadH] using payload_high_zero (k := 16) (m := 56) rfl x

@[simp] theorem reservedClear_payloadW (x : BitVec 32) : reservedClear 32 (payloadW x) = true := by
  simpa [reservedClear_eq_true, payloadW] using payload_high_zero (k := 32) (m := 40) rfl x

@[simp] theorem reservedClear_payloadL (x : Byte) (y : BitVec 32) : reservedClear 40 (payloadL x y) = true := by
  rw [reservedClear_eq_true]
  apply BitVec.eq_of_getLsbD_eq
  intro i hi
  simp only [payloadL, BitVec.getLsbD_append, BitVec.getLsbD_extractLsb', BitVec.getLsbD_zero]
  simp [show ¬ (40 + i < 32) by omega, show ¬ (40 + i - 32 < 8) by omega]

@[simp] theorem payloadB_operand (x : Byte) : (payloadB x).extractLsb' 0 8 = x := by
  exact BitVec.extractLsb'_append_eq_right

@[simp] theorem payloadH_operand (x : BitVec 16) : (payloadH x).extractLsb' 0 16 = x := by
  exact BitVec.extractLsb'_append_eq_right

@[simp] theorem payloadW_operand (x : BitVec 32) : (payloadW x).extractLsb' 0 32 = x := by
  exact BitVec.extractLsb'_append_eq_right

@[simp] theorem payloadL_code (x : Byte) (y : BitVec 32) : (payloadL x y).extractLsb' 0 32 = y := by
  exact BitVec.extractLsb'_append_eq_right

@[simp] theorem payloadL_len (x : Byte) (y : BitVec 32) : (payloadL x y).extractLsb' 32 8 = x := by
  apply BitVec.eq_of_getLsbD_eq
  intro i hi
  simp only [payloadL, BitVec.getLsbD_append, BitVec.getLsbD_extractLsb']
  simp [hi]

@[simp] theorem payloadT_slots (x : Byte) (y : BitVec 64) : (payloadT x y).extractLsb' 0 64 = y := by
  exact BitVec.extractLsb'_append_eq_right

@[simp] theorem payloadT_nsym (x : Byte) (y : BitVec 64) : (payloadT x y).extractLsb' 64 8 = x := by
  exact BitVec.extractLsb'_append_eq_left

/-! What each format's decoder answers, and from which payloads (R62 to R68, R72). -/

/-- A payload whose bits from `k` on are zero is its low `k` bits, zero-extended. -/
theorem payload_of_clear {m k : Nat} (e : m + k = 72) {pl : Payload} (h : reservedClear k pl = true) :
    pl = (0#m ++ pl.extractLsb' 0 k).cast e := by
  rw [reservedClear_eq_true] at h
  have hb : ∀ j, j < 72 - k → pl.getLsbD (k + j) = false := fun j hj => by
    simpa [hj] using congrArg (BitVec.getLsbD · j) h
  apply BitVec.eq_of_getLsbD_eq
  intro i hi
  by_cases hik : i < k
  · simp [BitVec.getLsbD_append, hik]
  · have h0 := hb (i - k) (by omega)
    rw [show k + (i - k) = i by omega] at h0
    simp [BitVec.getLsbD_append, hik, h0]

theorem decodeZ_eq_ok {op : Byte} {pl : Payload} {i j : Instr} (h : decodeZ op pl i = .ok j) :
    pl = payloadZ ∧ i = j := by
  rw [decodeZ, whenClear_eq_ok, reservedClear_eq_true] at h
  exact ⟨by simpa [payloadZ] using h.1, h.2⟩

theorem decodeB_eq_ok {op : Byte} {pl : Payload} {mk : Byte → Instr} {j : Instr} (h : decodeB op pl mk = .ok j) :
    ∃ x, pl = payloadB x ∧ j = mk x := by
  rw [decodeB, whenClear_eq_ok] at h
  exact ⟨_, payload_of_clear (m := 64) rfl h.1, h.2.symm⟩

theorem decodeH_eq_ok {op : Byte} {pl : Payload} {mk : BitVec 16 → Instr} {j : Instr} (h : decodeH op pl mk = .ok j) :
    ∃ x, pl = payloadH x ∧ j = mk x := by
  rw [decodeH, whenClear_eq_ok] at h
  exact ⟨_, payload_of_clear (m := 56) rfl h.1, h.2.symm⟩

theorem decodeW_eq_ok {op : Byte} {pl : Payload} {mk : BitVec 32 → Instr} {j : Instr} (h : decodeW op pl mk = .ok j) :
    ∃ x, pl = payloadW x ∧ j = mk x := by
  rw [decodeW, whenClear_eq_ok] at h
  exact ⟨_, payload_of_clear (m := 40) rfl h.1, h.2.symm⟩

theorem decodeL_eq_ok {op : Byte} {pl : Payload} {mk : Byte → BitVec 32 → Instr} {j : Instr}
    (h : decodeL op pl mk = .ok j) : ∃ x y, pl = payloadL x y ∧ j = mk x y := by
  rw [decodeL, whenClear_eq_ok] at h
  refine ⟨_, _, ?_, h.2.symm⟩
  refine (payload_of_clear (m := 32) rfl h.1).trans ?_
  apply BitVec.eq_of_getLsbD_eq
  intro i hi
  simp only [payloadL, BitVec.cast_eq, BitVec.getLsbD_append, BitVec.getLsbD_extractLsb', BitVec.getLsbD_zero]
  by_cases h1 : i < 32
  · simp [h1, show i < 40 by omega]
  · by_cases h2 : i < 40
    · simp [h1, h2, show i - 32 < 8 by omega, show 32 + (i - 32) = i by omega]
    · simp [h1, h2, show ¬ (i - 32 < 8) by omega]

theorem decodeT_eq_ok {pl : Payload} {mk : Byte → BitVec 64 → Instr} {j : Instr} (h : decodeT pl mk = .ok j) :
    ∃ x y, pl = payloadT x y ∧ j = mk x y :=
  ⟨_, _, (BitVec.extractLsb'_append_extractLsb' (w := 8) (len := 64)).symm, (Except.ok.inj h).symm⟩

theorem decodeP_eq_ok {op : Byte} {pl : Payload} {mk : Payload → Instr} {j : Instr} (h : decodeP op pl mk = .ok j) :
    Machine.precReserved pl = 0 ∧ j = mk pl := by
  rw [decodeP, whenClear_eq_ok] at h
  exact ⟨by simpa using h.1, h.2.symm⟩

/-! The packed Protocol record, field by field (R68, R69). -/

namespace Machine

/-- Reading above the low part of a concatenation. -/
theorem extract_high {v w : Nat} (a : BitVec v) (b : BitVec w) (lo len : Nat) :
    (a ++ b).extractLsb' (w + lo) len = a.extractLsb' lo len := by
  rw [BitVec.extractLsb'_append_eq_of_le (by omega), Nat.add_sub_cancel_left]

/-- Reading a packed HighLow gives its fields (R69). -/
theorem unpack_packHighLow (h : HighLow) :
    (packHighLow h).extractLsb' 8 8 = h.high ∧ (packHighLow h).extractLsb' 0 8 = h.low :=
  ⟨BitVec.extractLsb'_append_eq_left, BitVec.extractLsb'_append_eq_right⟩

/-- The pulse length stands in bits 71:56 (R68). -/
theorem packProtocol_pulseLength (p : Protocol) : (packProtocol p).extractLsb' 56 16 = p.pulseLength :=
  (extract_high _ (BitVec.ofBool p.invertedSignal) 55 16).trans
    ((extract_high _ (0#7) 48 16).trans
      ((extract_high _ (packHighLow p.one) 32 16).trans
        ((extract_high _ (packHighLow p.zero) 16 16).trans
          ((extract_high _ (packHighLow p.syncFactor) 0 16).trans BitVec.extractLsb'_eq_self))))

/-- The sync factor stands in bits 55:40 (R68). -/
theorem packProtocol_syncFactor (p : Protocol) :
    (packProtocol p).extractLsb' 40 16 = packHighLow p.syncFactor :=
  (extract_high _ (BitVec.ofBool p.invertedSignal) 39 16).trans
    ((extract_high _ (0#7) 32 16).trans
      ((extract_high _ (packHighLow p.one) 16 16).trans
        ((extract_high _ (packHighLow p.zero) 0 16).trans BitVec.extractLsb'_append_eq_right)))

/-- The HighLow of a 0 bit stands in bits 39:24 (R68). -/
theorem packProtocol_zero (p : Protocol) : (packProtocol p).extractLsb' 24 16 = packHighLow p.zero :=
  (extract_high _ (BitVec.ofBool p.invertedSignal) 23 16).trans
    ((extract_high _ (0#7) 16 16).trans
      ((extract_high _ (packHighLow p.one) 0 16).trans BitVec.extractLsb'_append_eq_right))

/-- The HighLow of a 1 bit stands in bits 23:8 (R68). -/
theorem packProtocol_one (p : Protocol) : (packProtocol p).extractLsb' 8 16 = packHighLow p.one :=
  (extract_high _ (BitVec.ofBool p.invertedSignal) 7 16).trans
    ((extract_high _ (0#7) 0 16).trans BitVec.extractLsb'_append_eq_right)

/-- The reserved bits 7:1 are zero (R68). -/
theorem precReserved_packProtocol (p : Protocol) : precReserved (packProtocol p) = 0 :=
  (extract_high _ (BitVec.ofBool p.invertedSignal) 0 7).trans BitVec.extractLsb'_append_eq_right

/-- The polarity stands in bit 0 (R68). -/
theorem packProtocol_inverted (p : Protocol) : (packProtocol p).getLsbD 0 = p.invertedSignal := by
  unfold packProtocol
  rw [BitVec.getLsbD_append]
  simp

/-- A field of a field is a field. -/
theorem extract_extract {w : Nat} (x : BitVec w) (lo m k n : Nat) (h : k + n ≤ m) :
    (x.extractLsb' lo m).extractLsb' k n = x.extractLsb' (lo + k) n := by
  apply BitVec.eq_of_getLsbD_eq
  intro i hi
  simp [BitVec.getLsbD_extractLsb', show k + i < m by omega, Nat.add_assoc]

/-- A HighLow is read from the 16 bits that pack it (R69). -/
theorem unpackHighLow_eq {prec : Payload} {lo : Nat} {h : HighLow} (e : prec.extractLsb' lo 16 = packHighLow h) :
    unpackHighLow prec lo = h := by
  have hh := extract_extract prec lo 16 8 8 (by decide)
  have hl := extract_extract prec lo 16 0 8 (by decide)
  rw [e, (unpack_packHighLow h).1] at hh
  rw [e, (unpack_packHighLow h).2, Nat.add_zero] at hl
  simp [unpackHighLow, ← hh, ← hl]

/-- Unpacking a packed record gives it back (R68). -/
theorem unpackProtocol_packProtocol (p : Protocol) : unpackProtocol (packProtocol p) = p := by
  simp only [unpackProtocol, packProtocol_pulseLength, packProtocol_inverted,
    unpackHighLow_eq (packProtocol_syncFactor p), unpackHighLow_eq (packProtocol_zero p),
    unpackHighLow_eq (packProtocol_one p)]

end Machine
end Sys2Proof
end

