-- ==== Sys2Proof/Laws/Matcher.lean ====
section
/-! SUPPORT. For each operation of the Pulse Decoder, what it does, said once. -/

namespace Sys2Proof.Machine

/-! The tolerance test (R138) and one pair (R139). -/

/-- The expected duration itself is always within tolerance. -/
@[simp] theorem within_self (x tol : Nat) : within x x tol = true := by
  simp [within, absdiff]

theorem within_iff {obs exp tol : Nat} :
    within obs exp tol = true ↔ 100 * obs ≤ (100 + tol) * exp ∧ 100 * exp ≤ 100 * obs + tol * exp := by
  unfold within absdiff
  rw [decide_eq_true_iff, Nat.add_mul]
  split <;> omega

/-- A pair reads as 0 exactly if it matches `zero`, and as 1 if it matches `one` and not `zero` (R140). -/
theorem pairBit_eq_some_iff {p : Protocol} {delay tol a b bit : Nat} :
    pairBit p delay tol a b = some bit ↔
      (matchPair a b p.zero p delay tol = true ∧ bit = 0) ∨
      (matchPair a b p.zero p delay tol = false ∧ matchPair a b p.one p delay tol = true ∧ bit = 1) := by
  unfold pairBit
  cases matchPair a b p.zero p delay tol <;> cases matchPair a b p.one p delay tol <;> simp [eq_comm]

/-! The entry loop (R135, R140). -/

/-- The accumulator of the entry loop over the bits of the pairs. -/
def shiftIn (value : Nat) (bits : List Nat) : Nat := bits.foldl (fun v bit => (2 * v + bit) % 2 ^ 32) value

/-- Over `m` pairs the loop ends well exactly if every pair reads as a bit; then it has counted `m` bits and shifted them
in, the first pair first. -/
theorem accumulate_eq_some_iff {p : Protocol} {delay tol m : Nat} {l : List Nat} (hl : l.length = 2 * m)
    {value bits : Nat} {r : Nat × Nat} :
    accumulate p delay tol l value bits = some r ↔
      ∃ bs : List Nat, bs.length = m ∧
        (∀ i (h : i < bs.length), pairBit p delay tol (l.getD (2 * i) 0) (l.getD (2 * i + 1) 0) = some bs[i]) ∧
        r = (shiftIn value bs, bits + m) := by
  induction m generalizing l value bits with
  | zero =>
    have : l = [] := List.length_eq_zero_iff.mp (by omega)
    subst this
    constructor
    · intro h
      exact ⟨[], rfl, by simp, by simpa [accumulate, shiftIn, eq_comm] using h⟩
    · rintro ⟨bs, hb, -, rfl⟩
      simp [List.length_eq_zero_iff.mp hb, accumulate, shiftIn]
  | succ m ih =>
    match l, hl with
    | a :: b :: rest, hl =>
      have hr : rest.length = 2 * m := by simp at hl; omega
      cases hp : pairBit p delay tol a b with
      | none =>
        simp only [accumulate, hp]
        constructor
        · intro h; cases h
        · rintro ⟨bs, hb, h, -⟩
          have := h 0 (by omega)
          simp [hp] at this
      | some x =>
        simp only [accumulate, hp, ih hr]
        constructor
        · rintro ⟨bs, hb, h, rfl⟩
          refine ⟨x :: bs, by simp [hb], ?_, by simp [shiftIn]; omega⟩
          intro i hi
          cases i with
          | zero => simpa using hp
          | succ i =>
            have := h i (by simpa using hi)
            simpa [Nat.mul_add, List.getD_cons_succ] using this
        · rintro ⟨bs, hb, h, rfl⟩
          cases bs with
          | nil => simp at hb
          | cons y bs =>
            have hy : x = y := Option.some.inj (hp.symm.trans (h 0 (by simp)))
            subst hy
            refine ⟨bs, by simpa using hb, ?_, by simp [shiftIn]; omega⟩
            intro i hi
            have := h (i + 1) (by simpa using hi)
            simpa [Nat.mul_add, List.getD_cons_succ] using this

/-- Shifting in bits from an accumulator below `2^k`, with room for them in 32 bits: nothing is lost, the first bit is the
most significant, and the accumulator stands above them. -/
theorem shiftIn_bits (bs : List Nat) (v k : Nat) (hv : v < 2 ^ k) (hl : k + bs.length ≤ 32) (hb : ∀ x ∈ bs, x < 2) :
    shiftIn v bs < 2 ^ (k + bs.length) ∧
    (∀ i (h : i < bs.length), (shiftIn v bs).testBit (bs.length - 1 - i) = decide (bs[i] = 1)) ∧
    shiftIn v bs / 2 ^ bs.length = v := by
  induction bs generalizing v k with
  | nil => simp [shiftIn, hv]
  | cons b bs ih =>
    have hb0 := hb b (by simp)
    simp only [List.length_cons] at hl
    have hp : 2 * v + b < 2 ^ (k + 1) := by rw [pow_succ]; omega
    have h32 : 2 ^ (k + 1) ≤ 2 ^ 32 := Nat.pow_le_pow_right (by norm_num) (by omega)
    have e : shiftIn v (b :: bs) = shiftIn (2 * v + b) bs := by
      unfold shiftIn; rw [List.foldl_cons, Nat.mod_eq_of_lt (by omega)]
    obtain ⟨h1, h2, h3⟩ := ih (2 * v + b) (k + 1) hp (by omega) (fun x hx => hb x (by simp [hx]))
    rw [e]
    refine ⟨by rw [List.length_cons, show k + (bs.length + 1) = k + 1 + bs.length by omega]; exact h1, ?_, ?_⟩
    · intro i hi
      cases i with
      | zero =>
        simp only [List.length_cons, Nat.add_sub_cancel, Nat.sub_zero, List.getElem_cons_zero]
        rw [Nat.testBit_eq_decide_div_mod_eq, h3]
        exact decide_eq_decide.mpr (by omega)
      | succ i =>
        simp only [List.length_cons, List.getElem_cons_succ]
        rw [← h2 i (by simpa using hi)]
        exact congrArg _ (by omega)
    · rw [List.length_cons, pow_succ, ← Nat.div_div_eq_div_mul, h3]
      omega

/-! One protocol attempt (R135, R141, R142). -/

/-- The delay `TryProtocol` infers (R136, R137). -/
def inferredDelay (p : Protocol) (cap : List Nat) (n : Nat) : Nat :=
  inferDelay p (syncEntries p cap n).1 (syncEntries p cap n).2

/-- An attempt matches exactly if the count is even and in 7..67, the delay is positive, and the entry loop ends well. -/
theorem tryProtocol_eq_some_iff {p : Protocol} {cap : List Nat} {n tol : Nat} {m : Decoded} :
    tryProtocol p cap n tol = some m ↔
      7 ≤ n ∧ n ≤ 67 ∧ n % 2 = 0 ∧ inferredDelay p cap n ≠ 0 ∧ m.delay = inferredDelay p cap n ∧
      accumulate p (inferredDelay p cap n) tol (cap.take (n - 2)) 0 0 = some (m.value, m.bits) := by
  unfold tryProtocol matchEntries
  rw [show inferDelay p (syncEntries p cap n).1 (syncEntries p cap n).2 = inferredDelay p cap n from rfl]
  by_cases hc : n < 7 ∨ 67 < n
  · simp only [if_pos hc, reduceCtorEq, false_iff]; omega
  · by_cases ho : n % 2 = 1
    · simp only [if_neg hc, if_pos ho, reduceCtorEq, false_iff]; omega
    · have h7 : 7 ≤ n := by omega
      have h67 : n ≤ 67 := by omega
      have h2 : n % 2 = 0 := by omega
      by_cases hd : inferredDelay p cap n = 0
      · simp [hd]
      · obtain ⟨v, b, d⟩ := m
        cases ha : accumulate p (inferredDelay p cap n) tol (cap.take (n - 2)) 0 0 with
        | none => simp [hc, hd]
        | some r =>
          obtain ⟨rv, rb⟩ := r
          rw [if_neg hc, if_neg ho, if_neg hd]
          constructor
          · intro h
            cases h
            exact ⟨h7, h67, h2, hd, rfl, rfl⟩
          · rintro ⟨-, -, -, -, hdl, hr⟩
            cases hr
            exact congrArg some (congrArg _ hdl.symm)

/-! The protocol loop (R133, R134). -/

/-- The loop answers the first record that matches, under its own id. -/
theorem firstMatch_eq_some_iff {cap : List Nat} {n tol id : Nat} {ps : List Protocol} {r : Nat × Decoded} :
    firstMatch cap n tol ps id = some r ↔
      ∃ j, ∃ h : j < ps.length, r.1 = id + j ∧ tryProtocol ps[j] cap n tol = some r.2 ∧
        ∀ i (hi : i < j), tryProtocol (ps[i]'(Nat.lt_trans hi h)) cap n tol = none := by
  induction ps generalizing id with
  | nil => simp [firstMatch]
  | cons p ps ih =>
    cases hp : tryProtocol p cap n tol with
    | some m =>
      simp only [firstMatch, hp, Option.some.injEq]
      constructor
      · rintro rfl
        exact ⟨0, by simp, rfl, hp, fun i hi => absurd hi (by omega)⟩
      · rintro ⟨j, hj, h1, h2, h3⟩
        cases j with
        | zero =>
          obtain ⟨a, b⟩ := r
          simp only [List.getElem_cons_zero, hp, Option.some.injEq] at h2
          simp_all
        | succ j => simpa [hp] using h3 0 (by omega)
    | none =>
      simp only [firstMatch, hp, ih]
      constructor
      · rintro ⟨j, hj, h1, h2, h3⟩
        refine ⟨j + 1, by simpa using hj, by omega, by simpa using h2, ?_⟩
        intro i hi
        cases i with
        | zero => simpa using hp
        | succ i => simpa using h3 i (by omega)
      · rintro ⟨j, hj, h1, h2, h3⟩
        cases j with
        | zero => simp [hp] at h2
        | succ j =>
          refine ⟨j, by simpa using hj, by omega, by simpa using h2, ?_⟩
          intro i hi
          simpa using h3 (i + 1) (by omega)

/-- The loop answers nothing exactly if no record matches. -/
theorem firstMatch_eq_none_iff {cap : List Nat} {n tol id : Nat} {ps : List Protocol} :
    firstMatch cap n tol ps id = none ↔ ∀ p ∈ ps, tryProtocol p cap n tol = none := by
  induction ps generalizing id with
  | nil => simp [firstMatch]
  | cons p ps ih =>
    cases hp : tryProtocol p cap n tol with
    | some m => simp [firstMatch, hp]
    | none => simp [firstMatch, hp, ih]

/-! `DECODE` (R133): its three outcomes. -/

theorem execDecode_of_overflow {s : State} (h : s.capovf = true) :
    execDecode s = .next (raiseError .captureOverflow s) := by
  simp [execDecode, h]

theorem execDecode_of_none {s : State} (h : s.capovf = false) (hd : decodeCapture s = none) :
    execDecode s = .next (respond 0 s) := by
  simp [execDecode, h, hd]

theorem execDecode_of_some {s : State} {id : Nat} {m : Decoded} (h : s.capovf = false)
    (hd : decodeCapture s = some (id, m)) :
    execDecode s = .next (respond 1 (publish m.value m.bits id m.delay (rotate (captured s) s.capcnt.toNat) s)) := by
  simp [execDecode, h, hd]

end Sys2Proof.Machine
end

