-- ==== Sys2Proof/Laws/PerInstr.lean ====
section
/-! SUPPORT. For every command, its encoded word stands in its row of spec/opcode_table.json: under the row's mask it is the row's match. -/

namespace Sys2Proof.Laws

/-- The mask of a command's row of spec/opcode_table.json, copied from the table. -/
def rowMask : Instr → CmdWord
  | .nop => 0xFFFFFFFFFFFFFFFFFFFF
  | .protoat _ => 0xFFFFFFFFFFFFFFFFFF00
  | .setproto _ => 0xFFFFFFFFFFFFFFFFFF00
  | .setprotof _ => 0xFF0000000000000000FE
  | .setpulse _ => 0xFFFFFFFFFFFFFFFF0000
  | .getcur => 0xFFFFFFFFFFFFFFFFFFFF
  | .setrep _ => 0xFFFFFFFFFFFFFFFFFF00
  | .enct _ _ => 0xFF000000000000000000
  | .encb _ _ => 0xFFFFFFFFFF0000000000
  | .settol _ => 0xFFFFFFFFFFFFFFFFFF00
  | .capclr => 0xFFFFFFFFFFFFFFFFFFFF
  | .cappush _ => 0xFFFFFFFFFFFF00000000
  | .decode => 0xFFFFFFFFFFFFFFFFFFFF
  | .avail => 0xFFFFFFFFFFFFFFFFFFFF
  | .rstavail => 0xFFFFFFFFFFFFFFFFFFFF
  | .getval => 0xFFFFFFFFFFFFFFFFFFFF
  | .getlen => 0xFFFFFFFFFFFFFFFFFFFF
  | .getdly => 0xFFFFFFFFFFFFFFFFFFFF
  | .getproto => 0xFFFFFFFFFFFFFFFFFFFF
  | .getraw _ => 0xFFFFFFFFFFFFFFFFFF00
  | .getcfg => 0xFFFFFFFFFFFFFFFFFFFF

/-- The match of a command's row of spec/opcode_table.json, copied from the table. -/
def rowMatch : Instr → CmdWord
  | .nop => 0x00000000000000000000
  | .protoat _ => 0x10000000000000000000
  | .setproto _ => 0x11000000000000000000
  | .setprotof _ => 0x12000000000000000000
  | .setpulse _ => 0x13000000000000000000
  | .getcur => 0x14000000000000000000
  | .setrep _ => 0x20000000000000000000
  | .enct _ _ => 0x21000000000000000000
  | .encb _ _ => 0x22000000000000000000
  | .settol _ => 0x30000000000000000000
  | .capclr => 0x31000000000000000000
  | .cappush _ => 0x32000000000000000000
  | .decode => 0x33000000000000000000
  | .avail => 0x40000000000000000000
  | .rstavail => 0x41000000000000000000
  | .getval => 0x42000000000000000000
  | .getlen => 0x43000000000000000000
  | .getdly => 0x44000000000000000000
  | .getproto => 0x45000000000000000000
  | .getraw _ => 0x46000000000000000000
  | .getcfg => 0x47000000000000000000

/-- Masking a word is masking its payload, where the mask covers the opcode whole. -/
theorem mask_split (op : Byte) {pl : Payload} (m : Payload) {mask mtch : CmdWord} (h : pl &&& m = 0)
    (hmask : mask = (BitVec.allOnes 8 ++ m : CmdWord)) (hmtch : mtch = (op ++ 0#72 : CmdWord)) :
    cmdWord op pl &&& mask = mtch := by
  rw [hmask, hmtch, cmdWord, BitVec.and_append, h, BitVec.and_allOnes]
  rfl

theorem payloadB_masked (x : Byte) : payloadB x &&& 0xFFFFFFFFFFFFFFFF00 = 0 :=
  (BitVec.and_append (x₁ := 0#64) (y₁ := x) (x₂ := BitVec.allOnes 64) (y₂ := 0#8)).trans (by simp)

theorem payloadH_masked (x : BitVec 16) : payloadH x &&& 0xFFFFFFFFFFFFFF0000 = 0 :=
  (BitVec.and_append (x₁ := 0#56) (y₁ := x) (x₂ := BitVec.allOnes 56) (y₂ := 0#16)).trans (by simp)

theorem payloadW_masked (x : BitVec 32) : payloadW x &&& 0xFFFFFFFFFF00000000 = 0 :=
  (BitVec.and_append (x₁ := 0#40) (y₁ := x) (x₂ := BitVec.allOnes 40) (y₂ := 0#32)).trans (by simp)

theorem payloadL_masked (x : Byte) (y : BitVec 32) : payloadL x y &&& 0xFFFFFFFF0000000000 = 0 := by
  unfold payloadL
  have h := BitVec.and_append (x₁ := 0#32) (y₁ := x) (x₂ := BitVec.allOnes 32) (y₂ := 0#8)
  have h' := BitVec.and_append (x₁ := 0#32 ++ x) (y₁ := y) (x₂ := BitVec.allOnes 32 ++ 0#8) (y₂ := 0#32)
  exact h'.trans (by rw [h]; simp)

/-- The reserved bits 7:1 of a record, seen through the table's mask. -/
theorem prec_masked {prec : Payload} (h : Machine.precReserved prec = 0) : prec &&& 0xFE = 0 := by
  have hb : ∀ i, i < 7 → prec.getLsbD (1 + i) = false := fun i hi => by
    have := congrArg (BitVec.getLsbD · i) h
    simpa [Machine.precReserved, BitVec.getLsbD_extractLsb', hi] using this
  apply BitVec.eq_of_getLsbD_eq
  intro i hi
  simp only [BitVec.getLsbD_and]
  by_cases h1 : 1 ≤ i ∧ i < 8
  · have := hb (i - 1) (by omega)
    rw [show 1 + (i - 1) = i by omega] at this
    simp [this]
  · have hm : (0xFE#72).getLsbD i = false := by
      rcases Nat.lt_or_ge i 8 with h8 | h8
      · have : i = 0 := by omega
        subst this; rfl
      · rw [show (0xFE#72) = (0xFE#8).setWidth 72 by rfl, BitVec.getLsbD_setWidth, BitVec.getLsbD_of_ge _ _ h8]
        simp
    simp [hm]

/-- What the one check of `wellFormed` says. -/
theorem pl_reserved {prec : Payload} (h : (Instr.setprotof prec).wellFormed = true) :
    Machine.precReserved prec = 0 := by
  simpa [Instr.wellFormed] using h

namespace WordMatchesRow

/-- A well-formed command's word matches its row of the opcode table (R70). -/
def Statement (i : Instr) : Prop := i.wellFormed = true → encode i &&& rowMask i = rowMatch i

theorem nop : Statement (Instr.nop) := fun _ => by decide
theorem protoat (x : Byte) : Statement (.protoat x) :=
  fun _ => mask_split 0x10 0xFFFFFFFFFFFFFFFF00 (payloadB_masked x) rfl rfl
theorem setproto (x : Byte) : Statement (.setproto x) :=
  fun _ => mask_split 0x11 0xFFFFFFFFFFFFFFFF00 (payloadB_masked x) rfl rfl
theorem setprotof (prec : Payload) : Statement (.setprotof prec) :=
  fun h => mask_split 0x12 0x0000000000000000FE (prec_masked (pl_reserved h)) rfl rfl
theorem setpulse (x : BitVec 16) : Statement (.setpulse x) :=
  fun _ => mask_split 0x13 0xFFFFFFFFFFFFFF0000 (payloadH_masked x) rfl rfl
theorem getcur : Statement (Instr.getcur) := fun _ => by decide
theorem setrep (x : Byte) : Statement (.setrep x) :=
  fun _ => mask_split 0x20 0xFFFFFFFFFFFFFFFF00 (payloadB_masked x) rfl rfl
theorem enct (x : Byte) (y : BitVec 64) : Statement (.enct x y) :=
  fun _ => mask_split 0x21 0x000000000000000000 (BitVec.and_zero) rfl rfl
theorem encb (x : Byte) (y : BitVec 32) : Statement (.encb x y) :=
  fun _ => mask_split 0x22 0xFFFFFFFF0000000000 (payloadL_masked x y) rfl rfl
theorem settol (x : Byte) : Statement (.settol x) :=
  fun _ => mask_split 0x30 0xFFFFFFFFFFFFFFFF00 (payloadB_masked x) rfl rfl
theorem capclr : Statement (Instr.capclr) := fun _ => by decide
theorem cappush (x : Duration) : Statement (.cappush x) :=
  fun _ => mask_split 0x32 0xFFFFFFFFFF00000000 (payloadW_masked x) rfl rfl
theorem decode : Statement (Instr.decode) := fun _ => by decide
theorem avail : Statement (Instr.avail) := fun _ => by decide
theorem rstavail : Statement (Instr.rstavail) := fun _ => by decide
theorem getval : Statement (Instr.getval) := fun _ => by decide
theorem getlen : Statement (Instr.getlen) := fun _ => by decide
theorem getdly : Statement (Instr.getdly) := fun _ => by decide
theorem getproto : Statement (Instr.getproto) := fun _ => by decide
theorem getraw (x : Byte) : Statement (.getraw x) :=
  fun _ => mask_split 0x46 0xFFFFFFFFFFFFFFFF00 (payloadB_masked x) rfl rfl
theorem getcfg : Statement (Instr.getcfg) := fun _ => by decide

end WordMatchesRow
end Sys2Proof.Laws
end

