-- ==== Sys2Proof/Laws/Step.lean ====
section
/-! SUPPORT. What one step of the machine can do, and what issuing commands can do, said once. -/

namespace Sys2Proof.Machine

/-- A step that answers a next state is one of five: idle; a command executed; a word answered with `IllegalCommand`; a
reset; a command abandoned by a reset. -/
theorem step_cases {s t : State} (h : step s = .next t) :
    (s.inputs = [] ∧ t = idle s) ∨
    (∃ w rest i, s.inputs = .command w :: rest ∧ decode w = .ok i ∧ exec i (withInputs rest s) = .next t) ∨
    (∃ w rest e, s.inputs = .command w :: rest ∧ decode w = .error e ∧
      t = raiseError .illegalCommand (withInputs rest s)) ∨
    (∃ rest, s.inputs = .reset :: rest ∧ t = resetBlock (withInputs rest s)) ∨
    (∃ w rest u, s.inputs = .resetDuring w :: rest ∧ runWord w (withInputs rest s) = .next u ∧
      t = abandon u.tx (withInputs rest s)) := by
  unfold step takeInput at h
  split at h
  · next hi => cases h; exact .inl ⟨hi, rfl⟩
  · next w rest hi =>
    cases hd : decode w with
    | ok i => exact .inr (.inl ⟨w, rest, i, hi, hd, by rw [← h, runWord_of_ok _ hd]⟩)
    | error e =>
      rw [runWord_of_error _ hd] at h
      cases h
      exact .inr (.inr (.inl ⟨w, rest, e, hi, hd, rfl⟩))
  · next rest hi => cases h; exact .inr (.inr (.inr (.inl ⟨rest, hi, rfl⟩)))
  · next w rest hi =>
    unfold runAbandoned at h
    split at h
    · next u hu => cases h; exact .inr (.inr (.inr (.inr ⟨w, rest, u, hi, hu, rfl⟩)))
    · cases h
    · cases h

/-! Issuing commands (R47, R79). -/

@[simp] theorem issue_nil (stop : Bool) (s : State) : issue stop [] s = .next s := rfl

/-- After a command that is answered, the rest is issued in the state it left, unless it raised and the list stops on an
error. -/
theorem issue_cons {stop : Bool} {i : Instr} {rest : List Instr} {s t : State} (h : exec i s = .next t) :
    issue stop (i :: rest) s = if stop && raised t then .next t else issue stop rest t := by
  simp [issue, h]

end Sys2Proof.Machine
end

