-- ==== Sys2Proof/Tests/Slice0.lean ====
section
/-! SUPPORT. Tests with the spec's own examples (the worked example of each command's rule, and spec/95_test_vectors.md), the smoke test of WellFormed, and for every statement with hypotheses a state and operands that meet them. -/

namespace Sys2Proof.Tests

open Sys2Proof.Machine Sys2Proof.Claims

/-! Helpers. -/

/-- Row 1 of the tables `TC1`, `TC4`, `TC5`. -/
def plain : Protocol := ⟨350, ⟨1, 31⟩, ⟨1, 3⟩, ⟨3, 1⟩, false⟩
/-- Row 2 of `TC1`. -/
def inverted : Protocol := ⟨450, ⟨23, 1⟩, ⟨1, 2⟩, ⟨2, 1⟩, true⟩
/-- The state after reset with table `TC1` (95_test_vectors.md, 0). -/
def start : State := State.resetWith [plain, inverted]
/-- `SETREP 1` done. -/
def once : State := { start with repeatCnt := 1 }
/-- The capture buffer as `LOADCAP` leaves it. -/
def load (ds : List Duration) (s : State) : State :=
  { s with cap := Vector.ofFn fun j : Fin 67 => ds.getD j.val 0, capcnt := BitVec.ofNat 7 ds.length }
/-- The transmission of `ENCB 3, 5` under `plain` (R116). -/
def sent : List Duration := [1050, 350, 350, 1050, 1050, 350, 350, 10850]
/-- The transmission of `ENCB 3, 5` under `inverted` (95_test_vectors.md, S3). -/
def sentInverted : List Duration := [450, 900, 900, 450, 450, 900, 450, 10350]
/-- The Holder of the examples of 43_holder.md. -/
def held : State :=
  { start with
    value := 5, bitlen := 3, protoid := 1, delay := 350, avail := true
    raw := Vector.ofFn fun j : Fin 67 => [350, 10850, 1050, 350, 350, 1050, 1050, 350].getD j.val 0 }
/-- A full buffer that has refused a push. -/
def overflowed : State := { start with capcnt := 67, capovf := true }
/-- The host's next events. -/
def given (es : List PortInput) (s : State) : State := { s with inputs := es }
/-- The state after the command word `w`. -/
def after (w : CmdWord) (s : State) : State :=
  match step (given [.command w] s) with
  | .next t => t
  | .fault _ => s
  | .refused _ => s
/-- The response to `w`, as numbers. -/
def answer (w : CmdWord) (s : State) : Option (Nat × Nat) :=
  (after w s).rsp.map fun r => ((statusCode r.status).toNat, r.data.toNat)
/-- What `w` puts on the transmit stream. -/
def stream (w : CmdWord) (s : State) : List Nat := (after w s).tx.map fun b => b.data.toNat

/-! WellFormed: its one check, on the reserved bits 7:1 of a packed record (R68, R72). -/

theorem test_illFormed_record_refused : (Instr.setprotof 0x015E011F0103030102).wellFormed = false := by decide
theorem test_illFormed_record_refused_top : (Instr.setprotof 0x80).wellFormed = false := by decide
theorem test_wellFormed_record : (Instr.setprotof 0x015E011F0103030101).wellFormed = true := by decide

/-! Decoding: the words of the rules' examples. -/

theorem test_decode_nop : decode 0x00000000000000000000 = .ok .nop := by decide
theorem test_decode_protoat : decode 0x10000000000000000001 = .ok (.protoat 1) := by decide
theorem test_decode_setproto : decode 0x11000000000000000002 = .ok (.setproto 2) := by decide
theorem test_decode_setprotof : decode 0x1201C217010102020101 = .ok (.setprotof 0x01C217010102020101) := by decide
theorem test_decode_setpulse : decode 0x130000000000000001F4 = .ok (.setpulse 500) := by decide
theorem test_decode_getcur : decode 0x14000000000000000000 = .ok .getcur := by decide
theorem test_decode_setrep : decode 0x20000000000000000001 = .ok (.setrep 1) := by decide
theorem test_decode_enct : decode 0x21032400000000000000 = .ok (.enct 3 0x2400000000000000) := by decide
theorem test_decode_encb : decode 0x22000000000300000005 = .ok (.encb 3 5) := by decide
theorem test_decode_settol : decode 0x30000000000000000014 = .ok (.settol 20) := by decide
theorem test_decode_capclr : decode 0x31000000000000000000 = .ok .capclr := by decide
theorem test_decode_cappush : decode 0x3200000000000000041A = .ok (.cappush 1050) := by decide
theorem test_decode_decode : decode 0x33000000000000000000 = .ok .decode := by decide
theorem test_decode_avail : decode 0x40000000000000000000 = .ok .avail := by decide
theorem test_decode_rstavail : decode 0x41000000000000000000 = .ok .rstavail := by decide
theorem test_decode_getval : decode 0x42000000000000000000 = .ok .getval := by decide
theorem test_decode_getlen : decode 0x43000000000000000000 = .ok .getlen := by decide
theorem test_decode_getdly : decode 0x44000000000000000000 = .ok .getdly := by decide
theorem test_decode_getproto : decode 0x45000000000000000000 = .ok .getproto := by decide
theorem test_decode_getraw : decode 0x46000000000000000001 = .ok (.getraw 1) := by decide
theorem test_decode_getcfg : decode 0x47000000000000000000 = .ok .getcfg := by decide

/-- R71: 0x48 is no opcode. R72: a reserved bit of each format that has one. -/
theorem test_decode_rejects :
    decode 0x48000000000000000000 = .error (.illegalOpcode 0x48) ∧
    decode 0x40000000000000000001 = .error (.reservedBits 0x40) ∧
    decode 0x46000000000000000101 = .error (.reservedBits 0x46) ∧
    decode 0x130000000000000101F4 = .error (.reservedBits 0x13) ∧
    decode 0x3200000000010000041A = .error (.reservedBits 0x32) ∧
    decode 0x22000000010300000005 = .error (.reservedBits 0x22) ∧
    decode 0x1201C217010102020103 = .error (.reservedBits 0x12) := by decide

/-- R42: the opcode byte is byte 0; nine bytes are no command. -/
theorem test_decodeBytes :
    decodeBytes [0x13, 0, 0, 0, 0, 0, 0, 0, 0x01, 0xF4] = .ok (.setpulse 500) ∧
    decodeBytes [0x13, 0, 0, 0, 0, 0, 0, 0, 0x01] = .error (.wrongLength 9) := by decide

/-! One step each: the response, and what the rule's example says changed. -/

theorem test_step_nop : answer 0x00000000000000000000 start = some (0, 0) := by decide
theorem test_step_protoat :
    answer 0x10000000000000000001 start = some (0, 0x015E011F0103030100) ∧
    answer 0x10000000000000000003 start = some (1, 0) := by decide
theorem test_step_setproto :
    (after 0x11000000000000000002 start).curp = inverted ∧ answer 0x11000000000000000000 start = some (1, 0) := by decide
theorem test_step_setprotof :
    (after 0x1201C217010102020101 start).curp = inverted ∧ answer 0x1201C217000102020101 start = some (1, 0) := by decide
theorem test_step_setpulse :
    (after 0x130000000000000001F4 start).curp = { plain with pulseLength := 500 } ∧
    answer 0x13000000000000000000 start = some (1, 0) := by decide
theorem test_step_getcur :
    answer 0x14000000000000000000 { start with curp := { plain with pulseLength := 500 } } = some (0, 0x01F4011F0103030100) := by decide
theorem test_step_setrep :
    (after 0x20000000000000000001 start).repeatCnt = 1 ∧ answer 0x20000000000000000000 start = some (4, 0) := by decide
theorem test_step_enct :
    stream 0x21032400000000000000 once = [350, 1050, 350, 1050, 1050, 350, 1050, 350, 350, 10850] ∧
    answer 0x21032400000000000000 once = some (0, 10) := by decide
theorem test_step_encb :
    stream 0x22000000000300000005 once = [1050, 350, 350, 1050, 1050, 350, 350, 10850] ∧
    stream 0x22000000000300000005 { once with curp := inverted } = [450, 900, 900, 450, 450, 900, 450, 10350] := by decide
theorem test_step_settol :
    (after 0x30000000000000000063 start).tol = 99 ∧ answer 0x30000000000000000064 start = some (4, 0) := by decide
theorem test_step_capclr :
    (after 0x31000000000000000000 overflowed).capcnt = 0 ∧ (after 0x31000000000000000000 overflowed).capovf = false := by
  decide
theorem test_step_cappush :
    answer 0x3200000000000000041A start = some (0, 1) ∧ (after 0x3200000000000000041A start).cap[0] = 1050 ∧
    answer 0x3200000000000000041A { start with capcnt := 67 } = some (3, 0) := by decide
theorem test_step_decode :
    answer 0x33000000000000000000 (load sent start) = some (0, 1) ∧
    (after 0x33000000000000000000 (load sent start)).value = 5 ∧
    (after 0x33000000000000000000 (load sent start)).raw = held.raw := by decide
theorem test_step_decode_inverted :
    (after 0x33000000000000000000 (load sentInverted start)).protoid = 2 ∧
    (after 0x33000000000000000000 (load sentInverted start)).delay = 450 := by decide
theorem test_step_avail : answer 0x40000000000000000000 held = some (0, 1) := by decide
theorem test_step_rstavail :
    (after 0x41000000000000000000 held).avail = false ∧ (after 0x41000000000000000000 held).value = 5 := by decide
theorem test_step_getval : answer 0x42000000000000000000 held = some (0, 5) := by decide
theorem test_step_getlen : answer 0x43000000000000000000 held = some (0, 3) := by decide
theorem test_step_getdly : answer 0x44000000000000000000 held = some (0, 350) := by decide
theorem test_step_getproto : answer 0x45000000000000000000 held = some (0, 1) := by decide
theorem test_step_getraw :
    answer 0x46000000000000000001 held = some (0, 10850) ∧ answer 0x46000000000000000043 held = some (4, 0) := by decide
theorem test_step_getcfg :
    answer 0x47000000000000000000 start = some (0, 0x00140A) ∧
    answer 0x47000000000000000000 { held with repeatCnt := 1, capcnt := 8 } = some (0, 0x2081401) := by decide
theorem test_step_illegal : answer 0xFF000000000000000000 start = some (5, 0) := by decide

/-- R138 at its bounds: 120% and 80% pass at a tolerance of 20, 121% and 79% do not (95_test_vectors.md, S2). -/
theorem test_within_bounds :
    within 1800 1500 20 = true ∧ within 1815 1500 20 = false ∧ within 1200 1500 20 = true ∧
    within 1185 1500 20 = false := by decide

/-- R78 (its own examples). -/
theorem test_text :
    commandText (.enct 4 0x2900000000000000) = "ENCT \"0FF1\"" ∧ commandText (.encb 24 5393) = "ENCB 24, 5393" := by decide

/-! Witnesses: for each statement with hypotheses, a state and operands that meet them, one for each clause, at the ends of
its range. -/

/-- A legal state: the state after reset with `TC1` (R29). -/
theorem start_legal : Legal start :=
  ⟨⟨by decide, by decide, by decide, by decide⟩, ⟨by decide, by decide⟩, .inl ⟨rfl, rfl, rfl, rfl, by decide, rfl⟩,
    ⟨(fun _ h => nomatch h), (fun k h => absurd h (Nat.not_lt_zero k))⟩⟩

theorem witness_DecodeInvertsEncode : (Instr.setprotof 0x01C217010102020101).wellFormed = true := by decide
theorem witness_DecodedWordIsItsEncoding : decode 0x1201C217010102020101 = .ok (.setprotof 0x01C217010102020101) := by decide
theorem witness_WordSpellsCommandIffInTable :
    decode 0x46000000000000000042 = .ok (.getraw 66) ∧
    (0x46000000000000000042 : CmdWord) &&& 0xFFFFFFFFFFFFFFFFFF00 = 0x46000000000000000000 := by decide
theorem witness_IllegalOpcodeRaises :
    (given [.command 0x01000000000000000000] start).inputs = .command 0x01000000000000000000 :: [] ∧
    (0x01000000000000000000 : CmdWord).extractLsb' 72 8 ∉ opcodes := by decide
theorem witness_ReservedBitRaises :
    (given [.command 0x33000000000000000001] start).inputs = .command 0x33000000000000000001 :: [] ∧
    ((0x33000000000000000000 : CmdWord), (0xFFFFFFFFFFFFFFFFFFFF : CmdWord)) ∈ opcodeRows ∧
    (0x33000000000000000001 : CmdWord).extractLsb' 72 8 = (0x33000000000000000000 : CmdWord).extractLsb' 72 8 ∧
    (0x33000000000000000001 : CmdWord) &&& 0xFFFFFFFFFFFFFFFFFFFF ≠ 0x33000000000000000000 := by decide
theorem witness_AllZeroWordIsNop : (given [.command 0] start).inputs = .command 0 :: [] := by decide
theorem witness_StepRunsDecodedCommand :
    (given [.command 0x13000000000000000001] start).inputs = .command 0x13000000000000000001 :: [] ∧
    decode 0x13000000000000000001 = .ok (.setpulse 1) ∧
    decodeTableWord 80 0x13000000000000000001 = some (.setpulse 1) := by decide
theorem witness_PackedRecordLayout : (0x01C217010102020101 : Payload).extractLsb' 1 7 = 0 := by decide
theorem witness_StatusCodesAsTabled : rspStatus (after 0xFF000000000000000000 start) = some 5 := by decide

/-- The ids 1 and N, and outside them 0 and N + 1. -/
theorem witness_ProtoatReadsStoredRecord :
    1 ≤ (1 : Byte).toNat ∧ start.proto[(1 : Byte).toNat - 1]? = some plain ∧
    1 ≤ (2 : Byte).toNat ∧ start.proto[(2 : Byte).toNat - 1]? = some inverted ∧
    (0 : Byte).toNat = 0 ∧ start.proto.length < (3 : Byte).toNat := by decide
theorem witness_SetprotoInstallsStoredRecord :
    start.proto[(2 : Byte).toNat - 1]? = some inverted ∧ start.proto.length < (3 : Byte).toNat := by decide
theorem witness_SetprotofInstallsRecord :
    (0x000101010101010100 : Payload).extractLsb' 1 7 = 0 ∧ AllPositive (unpackProtocol 0x000101010101010100) ∧
    (0x000101010101010000 : Payload).extractLsb' 1 7 = 0 ∧ ¬ AllPositive (unpackProtocol 0x000101010101010000) ∧
    (0x000101010101010102 : Payload).extractLsb' 1 7 ≠ 0 := by decide
theorem witness_SetpulseOverridesPulseLength : (1 : BitVec 16) ≠ 0 ∧ (65535 : BitVec 16) ≠ 0 := by decide
theorem witness_SelectionDropsPulseOverride :
    exec (.setpulse 500) start = .next { start with curp := { plain with pulseLength := 500 }, rsp := okRsp 0 } ∧
    start.proto[(2 : Byte).toNat - 1]? = some inverted ∧
    (0x01C217010102020101 : Payload).extractLsb' 1 7 = 0 ∧ AllPositive (unpackProtocol 0x01C217010102020101) :=
  ⟨rfl, by decide⟩
theorem witness_SetprotoplSelectsAndOverrides :
    1 ≤ (2 : Byte).toNat ∧ start.proto[(2 : Byte).toNat - 1]? = some inverted ∧ (0 : Byte).toNat = 0 ∧
    start.proto.length < (3 : Byte).toNat := by decide
theorem witness_SetrepSetsRepeatCount : (1 : Byte) ≠ 0 ∧ (255 : Byte) ≠ 0 := by decide

/-- Legal words: one symbol, 32 symbols, 16 `F`s. Bad ones: empty, 33 symbols, `0b11` in slot 0, 17 `F`s (R115). -/
theorem witness_EnctStreamsCodeWord :
    ¬ BadWord 1 0 ∧ ¬ BadWord 32 0x5555555555555555 ∧ ¬ BadWord 16 0xAAAAAAAA00000000 ∧
    BadWord 0 0 ∧ BadWord 33 0 ∧ BadWord 1 0xC000000000000000 ∧ BadWord 17 0xAAAAAAAA80000000 := by decide
/-- The lengths 1 and 32, and outside them 0 and 33. -/
theorem witness_EncbStreamsCode :
    1 ≤ (1 : Byte).toNat ∧ (1 : Byte).toNat ≤ 32 ∧ 1 ≤ (32 : Byte).toNat ∧ (32 : Byte).toNat ≤ 32 ∧
    (0 : Byte).toNat = 0 ∧ 32 < (33 : Byte).toNat := by decide
theorem witness_EnctWithoutFloatIsEncb :
    1 ≤ (3 : Byte).toNat ∧ (3 : Byte).toNat ≤ 32 ∧
    ∀ k < (3 : Byte).toNat, (0x4400000000000000 : BitVec 64).getLsbD (63 - 2 * k) = false ∧
      (0x4400000000000000 : BitVec 64).getLsbD (62 - 2 * k) = (5 : BitVec 32).getLsbD ((3 : Byte).toNat - 1 - k) := by
  decide
theorem witness_EncodeCommandsArePure : start ≠ held ∧ start.curp = held.curp ∧ start.repeatCnt = held.repeatCnt := by decide
theorem witness_StreamsAreBounded : LegalConfig start ∧ exec .nop start = .next { start with rsp := okRsp 0 } :=
  ⟨start_legal.config, rfl⟩
theorem witness_SettolSetsTolerance : (0 : Byte).toNat ≤ 99 ∧ (99 : Byte).toNat ≤ 99 ∧ 99 < (100 : Byte).toNat := by decide
/-- An empty buffer, one with one place left, a full one. -/
theorem witness_CappushAppendsEntry :
    start.capcnt.toNat < 67 ∧ { start with capcnt := 66 }.capcnt.toNat < 67 ∧ overflowed.capcnt.toNat = 67 := by decide
/-- Overflowed; no match; a match of the first record; a match of the last. -/
theorem witness_DecodePublishesFirstMatch :
    overflowed.capovf = true ∧
    (start.capovf = false ∧ ∀ p ∈ start.proto, attempt start p = none) ∧
    ((load sent start).capovf = false ∧ (load sent start).proto[0]? = some plain ∧
      attempt (load sent start) plain = some ⟨5, 3, 350⟩) ∧
    ((load sentInverted start).proto[1]? = some inverted ∧
      attempt (load sentInverted start) inverted = some ⟨5, 3, 450⟩ ∧ attempt (load sentInverted start) plain = none) := by
  decide
theorem witness_ToleranceBandIsExact : 0 < 1 ∧ 0 ≤ 99 ∧ 99 ≤ 99 ∧ 1 ≤ 1 := by decide
theorem witness_MatcherReadsEveryPair :
    tryProtocol plain (sent.map BitVec.toNat) sent.length 20 = some { value := 5, bits := 3, delay := 350 } ∧
    7 ≤ (sent.map BitVec.toNat).length ∧ (sent.map BitVec.toNat).length = 2 * 3 + 2 ∧
    delayOf plain (sent.map BitVec.toNat) 8 = 350 := by decide
/-- 6 and 7 entries, and 67 of them. -/
theorem witness_ShortOrOddCaptureNeverDecodes :
    start.capovf = false ∧ { start with capcnt := 6 }.capcnt.toNat < 7 ∧ { start with capcnt := 7 }.capcnt.toNat % 2 = 1 ∧
    { start with capcnt := 67 }.capcnt.toNat % 2 = 1 := by decide
/-- A state that differs from `load sent start` above `CAPCNT`, and in the Holder. -/
def twin : State := { load (sent ++ [7]) held with capcnt := 8 }
theorem witness_DecodeReadsOnlyItsInputs :
    (load sent start ≠ twin ∧ (load sent start).proto = twin.proto ∧ (load sent start).tol = twin.tol ∧
      (load sent start).capovf = twin.capovf ∧ (load sent start).capcnt = twin.capcnt ∧
      ∀ j : Fin 67, j.val < (load sent start).capcnt.toNat → (load sent start).cap[j] = twin.cap[j]) ∧
    ∃ t v, exec .decode (load sent start) = .next t ∧ exec .decode twin = .next v ∧ t.rsp = okRsp 1 := by
  refine ⟨by decide, _, _, execDecode_of_some (id := 1) (m := ⟨5, 3, 350⟩) (by decide) (by decide),
    execDecode_of_some (id := 1) (m := ⟨5, 3, 350⟩) (by decide) (by decide), by simp⟩
theorem witness_MatcherReadsBackTransmission :
    AllPositive plain ∧ 3 ≤ [true, false, true].length ∧ [true, false, true].length ≤ 32 ∧
    (List.replicate 32 true).length ≤ 32 ∧ ToldApart plain plain.pulseLength.toNat 20 := by
  refine ⟨by decide, by decide, by decide, by decide, ?_⟩
  unfold ToldApart PairMatches Near
  decide
theorem witness_EncodedTransmissionDecodes :
    ∃ t, exec (.encb 3 5) once = .next t ∧ once.repeatCnt = 1 ∧ AllPositive once.curp ∧ 3 ≤ (3 : Byte).toNat ∧
      (3 : Byte).toNat ≤ 32 ∧ (load sent start).capovf = false ∧
      (load sent start).capcnt.toNat = 2 * (3 : Byte).toNat + 2 ∧
      (load sent start).cap.toList.take (2 * (3 : Byte).toNat + 2) = t.tx.map TxBeat.data ∧
      (load sent start).proto[0]? = some once.curp ∧
      (∀ j q, j < 0 → (load sent start).proto[j]? = some q → attempt (load sent start) q = none) ∧
      ToldApart once.curp once.curp.pulseLength.toNat (load sent start).tol.toNat := by
  refine ⟨_, rfl, by decide, by decide, by decide, by decide, by decide, by decide, by decide, by decide, ?_, ?_⟩
  · intro j q hj
    omega
  · unfold ToldApart PairMatches Near
    decide

/-- The indices 0 and 66, and outside them 67. -/
theorem witness_GetrawReadsEntry :
    (0 : Byte).toNat = (0 : Fin 67).val ∧ (66 : Byte).toNat = (66 : Fin 67).val ∧ 66 < (67 : Byte).toNat := by decide
theorem witness_StatusAsTabled :
    exec (.settol 100) start = .next { start with rsp := errRsp .invalidArgument } ∧
    exec .decode overflowed = .next { overflowed with rsp := errRsp .captureOverflow } :=
  ⟨rfl, rfl⟩
/-- An error that changes nothing, and the one that sets `CAPOVF`. -/
theorem witness_ErrorsHaveNoPartialEffect :
    exec (.setrep 0) start = .next { start with rsp := errRsp .invalidArgument } ∧ Status.invalidArgument ≠ .ok ∧
    exec (.cappush 1) { start with capcnt := 67 } = .next { overflowed with rsp := errRsp .captureOverflow } :=
  ⟨rfl, by decide, rfl⟩
theorem witness_ResetStateIsLegal : legalTable [plain, inverted] = true := by decide
theorem witness_StepKeepsLegal : Legal start ∧ step start = .next start := ⟨start_legal, rfl⟩
/-- A step at which a register is written. -/
theorem witness_RegistersWrittenAsTabled :
    exec (.setrep 1) start = .next { once with rsp := okRsp 0 } ∧ once.repeatCnt ≠ start.repeatCnt :=
  ⟨rfl, by decide⟩
theorem witness_ProtocolTableNeverWritten : step start = .next start := rfl
/-- A step at which the flag rises, and steps at which it falls. -/
theorem witness_AvailLatchesUntilCleared :
    ((load sent start).avail = false ∧ (after 0x33000000000000000000 (load sent start)).avail = true) ∧
    (held.avail = true ∧ (after 0x41000000000000000000 held).avail = false) ∧
    step (given [.reset] held) = .next start :=
  ⟨by decide, by decide, rfl⟩
theorem witness_OverflowStaysUntilCleared :
    overflowed.capovf = true ∧ (after 0x31000000000000000000 overflowed).capovf = false ∧
    step (given [.reset] overflowed) = .next start :=
  ⟨by decide, by decide, rfl⟩
theorem witness_ResetInputRestoresReset : (given [.reset] held).inputs = .reset :: [] := by decide
/-- An encode command and a `DECODE` during which `rst` rises. -/
theorem witness_AbandonedCommandLeavesReset :
    (given [.resetDuring 0x22000000000300000005] once).inputs = .resetDuring 0x22000000000300000005 :: [] ∧
    step { given [.resetDuring 0x22000000000300000005] once with inputs := [.command 0x22000000000300000005] } =
      .next (after 0x22000000000300000005 once) ∧
    step { given [.resetDuring 0x33000000000000000000] (load sent start) with inputs := [.command 0x33000000000000000000] } =
      .next (after 0x33000000000000000000 (load sent start)) :=
  ⟨rfl, rfl, rfl⟩
theorem witness_IdleBlockHoldsState : held.inputs = [] := by decide

end Sys2Proof.Tests
end

section
/-! The state after reset satisfies the invariant `Legal` (R26, R29): one lemma for each part, of every legal table. -/

namespace Sys2Proof.Machine

/-- What a legal table is, as propositions (R4, R5). -/
theorem legalTable_iff {t : List Protocol} :
    legalTable t = true ↔ 1 ≤ t.length ∧ t.length ≤ 255 ∧ ∀ p ∈ t, validProtocol p = true := by
  simp [legalTable, and_assoc]

/-! The registers after reset: `CURP` is the first record of the table, and the table is kept (R13, R29). -/
@[simp] theorem resetWith_proto (t : List Protocol) : (State.resetWith t).proto = t := rfl
theorem resetWith_cons_curp (p : Protocol) (ps : List Protocol) : (State.resetWith (p :: ps)).curp = p := rfl
@[simp] theorem resetWith_repeatCnt (t : List Protocol) : (State.resetWith t).repeatCnt = 10 := rfl
@[simp] theorem resetWith_tol (t : List Protocol) : (State.resetWith t).tol = 20 := rfl
@[simp] theorem resetWith_capcnt (t : List Protocol) : (State.resetWith t).capcnt = 0 := rfl
@[simp] theorem resetWith_capovf (t : List Protocol) : (State.resetWith t).capovf = false := rfl
@[simp] theorem resetWith_raw (t : List Protocol) : (State.resetWith t).raw = Vector.replicate 67 0 := rfl
@[simp] theorem resetWith_rsp (t : List Protocol) : (State.resetWith t).rsp = none := rfl
@[simp] theorem resetWith_tx (t : List Protocol) : (State.resetWith t).tx = [] := rfl

/-- A legal table is not empty, so `CURP` after reset is one of its records, and valid as each of them is (R13). -/
theorem validProtocol_resetWith_curp {t : List Protocol} (h : legalTable t = true) :
    validProtocol (State.resetWith t).curp = true := by
  obtain ⟨hpos, -, hvalid⟩ := legalTable_iff.mp h
  cases t with
  | nil => exact absurd hpos (by decide)
  | cons p ps =>
    rw [resetWith_cons_curp]
    exact hvalid p List.mem_cons_self

theorem legalConfig_resetWith {t : List Protocol} (h : legalTable t = true) : LegalConfig (State.resetWith t) where
  table   := h
  current := validProtocol_resetWith_curp h
  repeats := by simp
  tol     := by simp

theorem legalCapture_resetWith (t : List Protocol) : LegalCapture (State.resetWith t) where
  count    := by simp
  overflow := by simp

theorem neverPublished_resetWith (t : List Protocol) : NeverPublished (State.resetWith t) where
  bitlen  := rfl
  value   := rfl
  protoid := rfl
  delay   := rfl
  raw     := by simp
  avail   := rfl

/-- Ports at which nothing stands are legal. -/
theorem legalPorts_of_idle {s : State} (hrsp : s.rsp = none) (htx : s.tx = []) : LegalPorts s where
  errorData := by simp [hrsp]
  lastBeat  := by simp [htx]

theorem legal_resetWith {t : List Protocol} (h : legalTable t = true) : Legal (State.resetWith t) where
  config  := legalConfig_resetWith h
  capture := legalCapture_resetWith t
  holder  := .inl (neverPublished_resetWith t)
  ports   := legalPorts_of_idle (resetWith_rsp t) (resetWith_tx t)

/-- Settles O45: the block's own table is legal by its type (R5), so `State.reset` is one case of the general fact. -/
theorem resetStateIsLegal : Obligations.ResetStateIsLegal := by
  unfold Obligations.ResetStateIsLegal
  exact ⟨legal_resetWith Config.protoTable.legal, fun _ h => legal_resetWith h⟩

end Sys2Proof.Machine
end

section
/-! What one command can do to the state, said once for all 21 (R26): an effect relation, and that every command has its
effect. The statements about whole steps are case splits on it. -/

namespace Sys2Proof.Machine

open Sys2Proof.Claims

/-- The states command `i` can lead to from `s`, by the register it writes (R26). A write stands here with the guard the
command has tested before it. -/
inductive Effect (i : Instr) (s : State) : State → Prop where
  /-- A response and no register written. -/
  | answer (d : Payload) : Effect i s (respond d s)
  /-- An error and no register written (R197). -/
  | error (e : Status) : Effect i s (raiseError e s)
  /-- A stream and no register written (R118). -/
  | stream (seq : List Duration) : Effect i s (respondTx seq s)
  /-- `CURP` written: in a legal state the record is a valid one (R93 to R95). -/
  | current (p : Protocol) (hi : writesCurp i = true) (hp : LegalConfig s → validProtocol p = true) :
      Effect i s (respond 0 (setCurp p s))
  /-- `SETREP` (R114). -/
  | repeats (r : Byte) (hi : i = .setrep r) (hr : r.toNat ≠ 0) : Effect i s (respond 0 (setRepeat r s))
  /-- `SETTOL` (R130). -/
  | tolerance (x : Byte) (hi : i = .settol x) (hx : x.toNat ≤ 99) : Effect i s (respond 0 (setTol x s))
  /-- `CAPCLR` (R131). -/
  | clear (hi : i = .capclr) : Effect i s (respond 0 (clearCapture s))
  /-- `CAPPUSH` on a buffer that is not full (R132). -/
  | push (d : Duration) (hi : i = .cappush d) (hc : s.capcnt.toNat ≠ 67) :
      Effect i s (respond ((s.capcnt + 1).setWidth 72) (pushCapture d s))
  /-- `CAPPUSH` on a full buffer (R132). -/
  | overflow (d : Duration) (hi : i = .cappush d) (hc : s.capcnt.toNat = 67) :
      Effect i s (raiseError .captureOverflow (setCapovf s))
  /-- `DECODE` that finds a match (R133). -/
  | publish (id : Nat) (m : Decoded) (hi : i = .decode) (hm : decodeCapture s = some (id, m)) :
      Effect i s (respond 1 (publish m.value m.bits id m.delay (rotate (captured s) s.capcnt.toNat) s))
  /-- `RSTAVAIL` (R171). -/
  | clearAvail (hi : i = .rstavail) : Effect i s (respond 0 (clearAvail s))

/-- A record of a legal table is valid (R5). -/
theorem validProtocol_of_protocolAt {s : State} {id : Byte} {p : Protocol} (hs : LegalConfig s)
    (h : protocolAt s id = some p) : validProtocol p = true := by
  obtain ⟨-, hlt, rfl⟩ := protocolAt_eq_some_iff.mp h
  obtain ⟨-, -, hvalid⟩ := legalTable_iff.mp hs.table
  exact hvalid _ (List.getElem_mem hlt)

/-- A positive pulse length keeps a record valid: the other six numbers stand (R95, R97). -/
theorem validProtocol_with_pulseLength {p : Protocol} {pl16 : BitVec 16} (hp : validProtocol p = true)
    (h : pl16.toNat ≠ 0) : validProtocol { p with pulseLength := pl16 } = true := by
  simp only [validProtocol, Bool.and_eq_true, decide_eq_true_eq] at hp ⊢
  obtain ⟨⟨⟨-, hsync⟩, hzero⟩, hone⟩ := hp
  exact ⟨⟨⟨Nat.one_le_iff_ne_zero.mpr h, hsync⟩, hzero⟩, hone⟩

/-! The commands with more than one outcome, one lemma each. -/

theorem execProtoat_effect (id : Byte) (s : State) : ∃ t, execProtoat id s = .next t ∧ Effect (.protoat id) s t := by
  unfold execProtoat
  split
  · exact ⟨_, rfl, .error _⟩
  · exact ⟨_, rfl, .answer _⟩

theorem execSetproto_effect (id : Byte) (s : State) :
    ∃ t, execSetproto id s = .next t ∧ Effect (.setproto id) s t := by
  unfold execSetproto
  split
  · exact ⟨_, rfl, .error _⟩
  · next p hp => exact ⟨_, rfl, .current p rfl fun hs => validProtocol_of_protocolAt hs hp⟩

theorem execSetprotof_effect (prec : Payload) (s : State) :
    ∃ t, execSetprotof prec s = .next t ∧ Effect (.setprotof prec) s t := by
  unfold execSetprotof
  split
  · exact ⟨_, rfl, .error _⟩
  · split
    · next hp => exact ⟨_, rfl, .current _ rfl fun _ => hp⟩
    · exact ⟨_, rfl, .error _⟩

theorem execSetpulse_effect (pl16 : BitVec 16) (s : State) :
    ∃ t, execSetpulse pl16 s = .next t ∧ Effect (.setpulse pl16) s t := by
  unfold execSetpulse
  split
  · exact ⟨_, rfl, .error _⟩
  · next h => exact ⟨_, rfl, .current _ rfl fun hs => validProtocol_with_pulseLength hs.current h⟩

theorem execSetrep_effect (r : Byte) (s : State) : ∃ t, execSetrep r s = .next t ∧ Effect (.setrep r) s t := by
  unfold execSetrep
  split
  · exact ⟨_, rfl, .error _⟩
  · next h => exact ⟨_, rfl, .repeats r rfl h⟩

/-- Both encode commands (R115, R116). -/
theorem encodeWord_effect (i : Instr) (bits : Option (List Bool)) (s : State) : Effect i s (encodeWord bits s) := by
  cases bits with
  | none => exact .error _
  | some bs => exact .stream _

theorem execSettol_effect (x : Byte) (s : State) : ∃ t, execSettol x s = .next t ∧ Effect (.settol x) s t := by
  unfold execSettol
  split
  · exact ⟨_, rfl, .error _⟩
  · next h => exact ⟨_, rfl, .tolerance x rfl (Nat.le_of_not_lt h)⟩

theorem execCappush_of_full {s : State} (d : Duration) (h : s.capcnt.toNat = 67) :
    execCappush d s = .next (raiseError .captureOverflow (setCapovf s)) := by
  simp [execCappush, h]

theorem execCappush_of_room {s : State} (d : Duration) (h : s.capcnt.toNat ≠ 67) :
    execCappush d s = .next (respond ((s.capcnt + 1).setWidth 72) (pushCapture d s)) := by
  simp [execCappush, h]

theorem execCappush_effect (d : Duration) (s : State) : ∃ t, execCappush d s = .next t ∧ Effect (.cappush d) s t := by
  by_cases h : s.capcnt.toNat = 67
  · exact ⟨_, execCappush_of_full d h, .overflow d rfl h⟩
  · exact ⟨_, execCappush_of_room d h, .push d rfl h⟩

theorem execDecode_effect (s : State) : ∃ t, execDecode s = .next t ∧ Effect .decode s t := by
  cases ho : s.capovf with
  | true => exact ⟨_, execDecode_of_overflow ho, .error _⟩
  | false =>
    cases hd : decodeCapture s with
    | none => exact ⟨_, execDecode_of_none ho hd, .answer _⟩
    | some r => exact ⟨_, execDecode_of_some ho hd, .publish r.1 r.2 rfl hd⟩

theorem execGetraw_effect (idx : Byte) (s : State) : ∃ t, execGetraw idx s = .next t ∧ Effect (.getraw idx) s t := by
  unfold execGetraw
  split
  · exact ⟨_, rfl, .error _⟩
  · exact ⟨_, rfl, .answer _⟩

/-- Every command is answered (R77), and with an effect of its own. -/
theorem exec_effect (i : Instr) (s : State) : ∃ t, exec i s = .next t ∧ Effect i s t := by
  cases i with
  | protoat id => exact execProtoat_effect id s
  | setproto id => exact execSetproto_effect id s
  | setprotof prec => exact execSetprotof_effect prec s
  | setpulse pl16 => exact execSetpulse_effect pl16 s
  | setrep r => exact execSetrep_effect r s
  | enct nsym slots => exact ⟨_, rfl, encodeWord_effect _ _ s⟩
  | encb len code => exact ⟨_, rfl, encodeWord_effect _ _ s⟩
  | settol x => exact execSettol_effect x s
  | capclr => exact ⟨_, rfl, .clear rfl⟩
  | cappush d => exact execCappush_effect d s
  | decode => exact execDecode_effect s
  | rstavail => exact ⟨_, rfl, .clearAvail rfl⟩
  | getraw idx => exact execGetraw_effect idx s
  | nop | getcur | avail | getval | getlen | getdly | getproto | getcfg => exact ⟨_, rfl, .answer _⟩

theorem effect_of_exec {i : Instr} {s t : State} (h : exec i s = .next t) : Effect i s t := by
  obtain ⟨u, hu, he⟩ := exec_effect i s
  cases hu.symm.trans h
  exact he

end Sys2Proof.Machine
end

section
/-! What the decoder publishes is a legal Holder (R18 to R22): bounds on every part of a match. -/

namespace Sys2Proof.Machine

/-- The bits a pair can stand for (R140). -/
theorem pairBit_lt_two {p : Protocol} {delay tol a b bit : Nat} (h : pairBit p delay tol a b = some bit) : bit < 2 := by
  rcases pairBit_eq_some_iff.mp h with ⟨-, rfl⟩ | ⟨-, -, rfl⟩ <;> decide

/-- The entry loop over `m` pairs, at most 32, counts `m` bits, and no bit of its value stands above them (R18, R19). -/
theorem accumulate_bounds {p : Protocol} {delay tol m value bits : Nat} {l : List Nat} (hl : l.length = 2 * m)
    (hm : m ≤ 32) (h : accumulate p delay tol l 0 0 = some (value, bits)) : bits = m ∧ value < 2 ^ m := by
  obtain ⟨bs, hlen, hpair, hr⟩ := (accumulate_eq_some_iff hl).mp h
  obtain ⟨rfl, rfl⟩ := Prod.mk.inj hr
  have hbit : ∀ x ∈ bs, x < 2 := by
    intro x hx
    obtain ⟨i, hi, rfl⟩ := List.mem_iff_getElem.mp hx
    exact pairBit_lt_two (hpair i hi)
  obtain ⟨hlt, -, -⟩ := shiftIn_bits bs 0 0 (by decide) (by omega) hbit
  exact ⟨Nat.zero_add m, by simpa [hlen] using hlt⟩

/-- An attempt that matches: the count is that of the bits' pairs and the sync pair, 3 to 32 bits, no bit of the value
above them, and a positive delay (R18, R19, R21, R141). -/
theorem tryProtocol_bounds {p : Protocol} {cap : List Nat} {n tol : Nat} {m : Decoded} (hcap : cap.length = n)
    (h : tryProtocol p cap n tol = some m) :
    n = 2 * m.bits + 2 ∧ 3 ≤ m.bits ∧ m.bits ≤ 32 ∧ m.value < 2 ^ m.bits ∧ 1 ≤ m.delay := by
  obtain ⟨h7, h67, heven, hdelay, hd, hacc⟩ := tryProtocol_eq_some_iff.mp h
  have hlen : (cap.take (n - 2)).length = 2 * ((n - 2) / 2) := by
    rw [List.length_take]; omega
  obtain ⟨hbits, hvalue⟩ := accumulate_bounds hlen (by omega) hacc
  exact ⟨by omega, by omega, by omega, by rwa [hbits], by omega⟩

theorem getD_lt {l : List Nat} {b : Nat} (hb : 0 < b) (hl : ∀ x ∈ l, x < b) (k : Nat) : l.getD k 0 < b := by
  rw [List.getD_eq_getElem?_getD]
  cases hk : l[k]? with
  | none => exact hb
  | some x => exact hl x (List.mem_of_getElem? hk)

/-- The inferred delay is an entry divided, so it fits the register an entry fits (R21, R137). -/
theorem inferredDelay_lt {p : Protocol} {cap : List Nat} {b : Nat} (hb : 0 < b) (hcap : ∀ x ∈ cap, x < b) (n : Nat) :
    inferredDelay p cap n < b := by
  have hentry := getD_lt hb hcap
  unfold inferredDelay inferDelay syncEntries
  split <;> split <;> exact Nat.lt_of_le_of_lt (Nat.div_le_self _ _) (hentry _)

/-- What a `DECODE` publishes in a state whose capture count is legal: an id of the table and a match within the bounds of
the Holder's registers (R18 to R22, R134). -/
structure DecodeBounds (s : State) (id : Nat) (m : Decoded) : Prop where
  id      : 1 ≤ id ∧ id ≤ s.proto.length
  bits    : 3 ≤ m.bits ∧ m.bits ≤ 32
  value   : m.value < 2 ^ m.bits
  delay   : 1 ≤ m.delay ∧ m.delay < 2 ^ 32
  entries : s.capcnt.toNat = 2 * m.bits + 2

theorem decodeCapture_bounds {s : State} {id : Nat} {m : Decoded} (hc : s.capcnt.toNat ≤ 67)
    (h : decodeCapture s = some (id, m)) : DecodeBounds s id m := by
  obtain ⟨j, hj, hid, htry, -⟩ := firstMatch_eq_some_iff.mp h
  have hlen : ((captured s).map BitVec.toNat).length = s.capcnt.toNat := by
    rw [List.length_map, captured_length hc]
  obtain ⟨hn, h3, h32, hvalue, hpos⟩ := tryProtocol_bounds hlen htry
  obtain ⟨-, -, -, -, hdelay, -⟩ := tryProtocol_eq_some_iff.mp htry
  have hfits : ∀ x ∈ (captured s).map BitVec.toNat, x < 2 ^ 32 := by
    intro x hx
    obtain ⟨d, -, rfl⟩ := List.mem_map.mp hx
    exact d.isLt
  have hlt := hdelay ▸ inferredDelay_lt (by decide) hfits s.capcnt.toNat
  exact ⟨by simp only at hid; omega, ⟨h3, h32⟩, hvalue, ⟨hpos, hlt⟩, hn⟩

end Sys2Proof.Machine
end

section
/-! Every operation of the state keeps `Legal`, one rule each, and so every command and every step does (R26). -/

namespace Sys2Proof.Machine

/-! The ports (R75, R76, R197). -/

/-- Ports with a response without error, or with data 0, and an idle stream. -/
theorem legalPorts_respond (d : Payload) (s : State) : LegalPorts (respond d s) where
  errorData := by simp
  lastBeat  := by simp

theorem legalPorts_raiseError (e : Status) (s : State) : LegalPorts (raiseError e s) where
  errorData := by simp
  lastBeat  := by simp

theorem legalPorts_respondTx (seq : List Duration) (s : State) : LegalPorts (respondTx seq s) where
  errorData := by simp
  lastBeat  := by
    intro k hk hlast
    simp only [respondTx_tx, beats_length] at hk hlast ⊢
    rw [beats_getElem hk] at hlast
    exact of_decide_eq_true hlast

/-- A stream cut short by a reset holds no last beat of the whole stream (R220). -/
theorem legalPorts_abandon {s u : State} (hu : LegalPorts u) : LegalPorts (abandon u.tx s) where
  errorData := by simp
  lastBeat  := by
    intro k hk hlast
    obtain ⟨n, hcut, hn⟩ := abandonedTx_prefix u.tx (Config.freePrefix s.freeCtr)
    simp only [abandon_tx, hcut, List.length_take, lt_inf_iff] at hk
    simp only [abandon_tx, hcut, List.getElem_take] at hlast
    have hend := hu.lastBeat k hk.2 hlast
    rcases hn with hnil | hlt
    · simp [hnil] at hk
    · omega

/-- Beyond the ports, `Legal` reads the registers alone: the host's events and the count of free values are free. -/
theorem Legal.with_ports {s : State} (hs : Legal s) (es : List PortInput) (r : Option Response) (tx : List TxBeat)
    (n : Nat) (hp : LegalPorts { s with inputs := es, rsp := r, tx := tx, freeCtr := n }) :
    Legal { s with inputs := es, rsp := r, tx := tx, freeCtr := n } where
  config  := { hs.config with }
  capture := { hs.capture with }
  holder  := hs.holder.imp (fun h => { h with }) (fun h => { h with })
  ports   := hp

theorem Legal.respond {s : State} (hs : Legal s) (d : Payload) : Legal (respond d s) :=
  hs.with_ports _ _ _ _ (legalPorts_respond d s)

theorem Legal.raiseError {s : State} (hs : Legal s) (e : Status) : Legal (raiseError e s) :=
  hs.with_ports _ _ _ _ (legalPorts_raiseError e s)

theorem Legal.respondTx {s : State} (hs : Legal s) (seq : List Duration) : Legal (respondTx seq s) :=
  hs.with_ports _ _ _ _ (legalPorts_respondTx seq s)

theorem Legal.idle {s : State} (hs : Legal s) : Legal (idle s) :=
  hs.with_ports _ _ _ _ (legalPorts_of_idle rfl rfl)

theorem Legal.withInputs {s : State} (hs : Legal s) (es : List PortInput) : Legal (withInputs es s) :=
  hs.with_ports _ _ _ _ { hs.ports with }

/-! The register writes. -/

theorem Legal.setCurp {s : State} (hs : Legal s) {p : Protocol} (hp : validProtocol p = true) :
    Legal (setCurp p s) where
  config  := { hs.config with current := hp }
  capture := { hs.capture with }
  holder  := hs.holder.imp (fun h => { h with }) (fun h => { h with })
  ports   := { hs.ports with }

theorem Legal.setRepeat {s : State} (hs : Legal s) {r : Byte} (hr : r.toNat ≠ 0) : Legal (setRepeat r s) where
  config  := { hs.config with repeats := Nat.one_le_iff_ne_zero.mpr hr }
  capture := { hs.capture with }
  holder  := hs.holder.imp (fun h => { h with }) (fun h => { h with })
  ports   := { hs.ports with }

theorem Legal.setTol {s : State} (hs : Legal s) {x : Byte} (hx : x.toNat ≤ 99) : Legal (setTol x s) where
  config  := { hs.config with tol := hx }
  capture := { hs.capture with }
  holder  := hs.holder.imp (fun h => { h with }) (fun h => { h with })
  ports   := { hs.ports with }

theorem Legal.clearCapture {s : State} (hs : Legal s) : Legal (clearCapture s) where
  config  := { hs.config with }
  capture := { count := by simp, overflow := by simp }
  holder  := hs.holder.imp (fun h => { h with }) (fun h => { h with })
  ports   := { hs.ports with }

/-- The count of a buffer that is not full does not wrap (R16). -/
theorem capcnt_succ_toNat {s : State} (h : s.capcnt.toNat < 67) : (s.capcnt + 1).toNat = s.capcnt.toNat + 1 :=
  BitVec.toNat_add_of_lt (by simp; omega)

theorem Legal.pushCapture {s : State} (hs : Legal s) (d : Duration) (hc : s.capcnt.toNat ≠ 67) :
    Legal (pushCapture d s) where
  config  := { hs.config with }
  capture := {
    count := by
      have hle := hs.capture.count
      rw [pushCapture_capcnt, capcnt_succ_toNat (by omega)]
      omega
    overflow := fun ho => absurd (hs.capture.overflow ho) hc }
  holder  := hs.holder.imp (fun h => { h with }) (fun h => { h with })
  ports   := { hs.ports with }

theorem Legal.setCapovf {s : State} (hs : Legal s) (hc : s.capcnt.toNat = 67) : Legal (setCapovf s) where
  config  := { hs.config with }
  capture := { hs.capture with overflow := fun _ => hc }
  holder  := hs.holder.imp (fun h => { h with }) (fun h => { h with })
  ports   := { hs.ports with }

theorem Legal.clearAvail {s : State} (hs : Legal s) : Legal (clearAvail s) where
  config  := { hs.config with }
  capture := { hs.capture with }
  holder  := hs.holder.imp (fun h => { h with avail := rfl }) (fun h => { h with })
  ports   := { hs.ports with }

theorem toNat_ofNat_of_fits {w n : Nat} (h : n < 2 ^ w) : (BitVec.ofNat w n).toNat = n := by
  rw [BitVec.toNat_ofNat, Nat.mod_eq_of_lt h]

/-- A match within its bounds fits the Holder's registers, so the publish writes it unchanged (R18 to R22, R143). -/
theorem published_of_bounds {s : State} {id : Nat} {m : Decoded} (hn : s.proto.length ≤ 255)
    (hb : DecodeBounds s id m) :
    Published (publish m.value m.bits id m.delay (rotate (captured s) s.capcnt.toNat) s) := by
  obtain ⟨hid, hbits, hvalue, hdelay, hentries⟩ := hb
  have hbitlen : (BitVec.ofNat 8 m.bits).toNat = m.bits := toNat_ofNat_of_fits (by omega)
  have hprotoid : (BitVec.ofNat 8 id).toNat = id := toNat_ofNat_of_fits (by omega)
  exact {
    bitlen  := by simpa only [publish_bitlen, hbitlen] using hbits
    value   := by
      simp only [publish_value, publish_bitlen, hbitlen]
      exact Nat.lt_of_le_of_lt (Nat.mod_le _ _) hvalue
    protoid := by simpa only [publish_protoid, publish_proto, hprotoid] using hid
    delay   := by
      rw [publish_delay, toNat_ofNat_of_fits hdelay.2]
      exact hdelay.1
    raw     := by
      intro j hj
      simp only [publish_bitlen, hbitlen, ← hentries] at hj
      simp only [publish_raw, Fin.getElem_fin]
      rw [rotate_getElem, if_pos hj] }

theorem Legal.publish {s : State} (hs : Legal s) {id : Nat} {m : Decoded} (hm : decodeCapture s = some (id, m)) :
    Legal (publish m.value m.bits id m.delay (rotate (captured s) s.capcnt.toNat) s) where
  config  := { hs.config with }
  capture := { hs.capture with }
  holder  := by
    obtain ⟨-, hn, -⟩ := legalTable_iff.mp hs.config.table
    exact .inr (published_of_bounds hn (decodeCapture_bounds hs.capture.count hm))
  ports   := { hs.ports with }

/-! Reset (R220, R221). -/

theorem legal_resetBlock {s : State} (h : legalTable s.proto = true) : Legal (resetBlock s) :=
  (legal_resetWith h).with_ports _ _ _ _ (legalPorts_of_idle rfl rfl)

theorem legal_abandon {s u : State} (h : legalTable s.proto = true) (hu : LegalPorts u) : Legal (abandon u.tx s) :=
  (legal_resetBlock h).with_ports _ _ _ _ (legalPorts_abandon hu)

/-! Commands and steps. -/

theorem Legal.of_effect {i : Instr} {s t : State} (hs : Legal s) (he : Effect i s t) : Legal t := by
  cases he with
  | answer d => exact hs.respond d
  | error e => exact hs.raiseError e
  | stream seq => exact hs.respondTx seq
  | current p _ hp => exact (hs.setCurp (hp hs.config)).respond 0
  | repeats r _ hr => exact (hs.setRepeat hr).respond 0
  | tolerance x _ hx => exact (hs.setTol hx).respond 0
  | clear _ => exact hs.clearCapture.respond 0
  | push d _ hc => exact (hs.pushCapture d hc).respond _
  | overflow _ _ hc => exact (hs.setCapovf hc).raiseError _
  | publish id m _ hm => exact (hs.publish hm).respond 1
  | clearAvail _ => exact hs.clearAvail.respond 0

theorem Legal.exec {i : Instr} {s t : State} (hs : Legal s) (h : exec i s = .next t) : Legal t :=
  hs.of_effect (effect_of_exec h)

theorem Legal.runWord {w : CmdWord} {s t : State} (hs : Legal s) (h : runWord w s = .next t) : Legal t := by
  cases hd : decode w with
  | ok i => exact hs.exec ((runWord_of_ok s hd).symm.trans h)
  | error e =>
    cases (runWord_of_error s hd).symm.trans h
    exact hs.raiseError _

/-- Settles O46: of the five things a step can be, a command or an illegal word keeps `Legal` by the rules above, and a
reset establishes it anew from the table alone. -/
theorem stepKeepsLegal : Obligations.StepKeepsLegal := by
  unfold Obligations.StepKeepsLegal
  intro s t hs h
  rcases step_cases h with ⟨-, rfl⟩ | ⟨w, rest, i, -, -, hx⟩ | ⟨w, rest, e, -, -, rfl⟩ | ⟨rest, -, rfl⟩ |
    ⟨w, rest, u, -, hu, rfl⟩
  · exact hs.idle
  · exact (hs.withInputs rest).exec hx
  · exact (hs.withInputs rest).raiseError _
  · exact legal_resetBlock (hs.withInputs rest).config.table
  · exact legal_abandon (hs.withInputs rest).config.table ((hs.withInputs rest).runWord hu).ports

end Sys2Proof.Machine
end

section
/-! The registers over a command and over a step: what can write each of them (R12, R17, R24, R26). -/

namespace Sys2Proof.Machine

open Sys2Proof.Claims

/-- Settles O48: each effect writes the registers of its own row of the table and leaves the others as they were. -/
theorem registersWrittenAsTabled : Obligations.RegistersWrittenAsTabled := by
  unfold Obligations.RegistersWrittenAsTabled
  intro i s t h
  cases effect_of_exec h with
  | answer _ | error _ | stream _ => simp [SameHolder]
  | current _ hi _ | repeats _ hi _ | tolerance _ hi _ | push _ hi _ | overflow _ hi _ => simp [SameHolder, hi]
  | clear hi | clearAvail hi => simp [SameHolder, hi]
  | publish _ _ hi _ => simp [hi]

theorem exec_proto {i : Instr} {s t : State} (h : exec i s = .next t) : t.proto = s.proto :=
  (registersWrittenAsTabled i s t h).1

theorem exec_capovf {i : Instr} {s t : State} (h : exec i s = .next t) (hne : t.capovf ≠ s.capovf) :
    (∃ d, i = .cappush d) ∨ i = .capclr := by
  obtain ⟨-, -, -, -, -, -, -, hovf, -⟩ := registersWrittenAsTabled i s t h
  exact hovf hne

theorem exec_avail {i : Instr} {s t : State} (h : exec i s = .next t) (hne : t.avail ≠ s.avail) :
    (i = .decode ∧ t.rsp = okRsp 1 ∧ t.avail = true) ∨ (i = .rstavail ∧ t.avail = false) := by
  obtain ⟨-, -, -, -, -, -, -, -, -, havail⟩ := registersWrittenAsTabled i s t h
  exact havail hne

/-- `CAPPUSH` never clears the overflow: it keeps the bit or sets it (R17, R132). -/
theorem cappush_capovf {d : Duration} {s t : State} (h : exec (.cappush d) s = .next t) (hs : s.capovf = true) :
    t.capovf = true := by
  by_cases hc : s.capcnt.toNat = 67
  · cases (execCappush_of_full d hc).symm.trans h
    rfl
  · cases (execCappush_of_room d hc).symm.trans h
    exact hs

/-- Settles O49: no command writes the table, and a reset keeps it (R12, R221). -/
theorem protocolTableNeverWritten : Obligations.ProtocolTableNeverWritten := by
  unfold Obligations.ProtocolTableNeverWritten
  intro s t h
  rcases step_cases h with ⟨-, rfl⟩ | ⟨w, rest, i, -, -, hx⟩ | ⟨w, rest, e, -, -, rfl⟩ | ⟨rest, -, rfl⟩ |
    ⟨w, rest, u, -, -, rfl⟩
  · rfl
  · exact (exec_proto hx).trans (withInputs_proto rest s)
  · rfl
  · rfl
  · rfl

/-- What a step does to the two flags: it keeps them, or runs a command on them as they stand, or it is a reset and `AVAIL`
is clear. -/
theorem step_flags {s t : State} (h : step s = .next t) :
    (t.avail = s.avail ∧ t.capovf = s.capovf) ∨
    (∃ w rest i u, s.inputs = .command w :: rest ∧ decode w = .ok i ∧ exec i u = .next t ∧
      u.avail = s.avail ∧ u.capovf = s.capovf) ∨
    (t.avail = false ∧
      ∃ e rest, s.inputs = e :: rest ∧ (e = .reset ∨ ∃ w, e = .resetDuring w)) := by
  rcases step_cases h with ⟨-, rfl⟩ | ⟨w, rest, i, hw, hd, hx⟩ | ⟨w, rest, e, -, -, rfl⟩ | ⟨rest, hr, rfl⟩ |
    ⟨w, rest, u, hr, -, rfl⟩
  · exact .inl ⟨rfl, rfl⟩
  · exact .inr (.inl ⟨w, rest, i, _, hw, hd, hx, rfl, rfl⟩)
  · exact .inl ⟨rfl, rfl⟩
  · exact .inr (.inr ⟨rfl, _, rest, hr, .inl rfl⟩)
  · exact .inr (.inr ⟨rfl, _, rest, hr, .inr ⟨w, rfl⟩⟩)

/-- Settles O50: a reset lowers the flag, and of the commands a publish raises it and `RSTAVAIL` lowers it. -/
theorem availLatchesUntilCleared : Obligations.AvailLatchesUntilCleared := by
  unfold Obligations.AvailLatchesUntilCleared
  intro s t h
  rcases step_flags h with ⟨hkeep, -⟩ | ⟨w, rest, i, u, hw, hd, hx, hu, -⟩ | ⟨hlow, e, rest, hr, hreset⟩
  · constructor <;> intro hs ht
    · simp [hs, ht] at hkeep
    · simp [hs, ht] at hkeep
  · constructor <;> intro hs ht
    · rcases exec_avail hx (by simp [hu, hs, ht]) with ⟨rfl, hrsp, -⟩ | ⟨-, hlow⟩
      · exact ⟨w, rest, hw, hd, hrsp⟩
      · simp [ht] at hlow
    · rcases exec_avail hx (by simp [hu, hs, ht]) with ⟨-, -, hhigh⟩ | ⟨rfl, -⟩
      · simp [ht] at hhigh
      · exact ⟨_, rest, hw, .inl ⟨w, rfl, hd⟩⟩
  · constructor <;> intro hs ht
    · simp [ht] at hlow
    · exact ⟨e, rest, hr, .inr hreset⟩

/-- Settles O51: of the commands only `CAPPUSH` and `CAPCLR` write the overflow, and `CAPPUSH` never clears it. -/
theorem overflowStaysUntilCleared : Obligations.OverflowStaysUntilCleared := by
  unfold Obligations.OverflowStaysUntilCleared
  intro s t h hs ht
  rcases step_flags h with ⟨-, hkeep⟩ | ⟨w, rest, i, u, hw, hd, hx, -, hu⟩ | ⟨-, e, rest, hr, hreset⟩
  · simp [hs, ht] at hkeep
  · rcases exec_capovf hx (by simp [hu, hs, ht]) with ⟨d, rfl⟩ | rfl
    · exact absurd (cappush_capovf hx (hu.trans hs)) (by simp [ht])
    · exact ⟨_, rest, hw, .inl ⟨w, rfl, hd⟩⟩
  · exact ⟨e, rest, hr, .inr hreset⟩

end Sys2Proof.Machine
end

section
/-! The register values a reset leaves (R29, R221), of every table. -/

namespace Sys2Proof.Machine

open Sys2Proof.Claims

/-- The first record of a table is the one `CURP` takes (R29). -/
theorem resetWith_curp_of_first {table : List Protocol} {p : Protocol} (h : table[0]? = some p) :
    (State.resetWith table).curp = p := by
  cases table with
  | nil => cases h
  | cons q qs => exact Option.some.inj h

theorem resetValues_resetWith (table : List Protocol) : ResetValues table (State.resetWith table) where
  proto   := rfl
  curp    := fun _ => resetWith_curp_of_first
  repeats := rfl
  tol     := rfl
  capcnt  := rfl
  capovf  := rfl
  value   := rfl
  bitlen  := rfl
  protoid := rfl
  delay   := rfl
  raw     := (neverPublished_resetWith table).raw
  avail   := rfl

/-- Settles O44: the registers are those of any block after reset, and nothing stands at the ports. -/
theorem resetStateAsStated : Obligations.ResetStateAsStated := by
  unfold Obligations.ResetStateAsStated
  exact ⟨resetValues_resetWith _, rfl, rfl, rfl, rfl⟩

end Sys2Proof.Machine
end

section
/-! `DECODE` depends on what rule R133 lets it read: two states that agree there decode alike. -/

namespace Sys2Proof.Machine

open Sys2Proof.Claims

/-- Two states agree on everything `DECODE` reads (R133). -/
structure DecodesAlike (s u : State) : Prop where
  proto   : s.proto = u.proto
  tol     : s.tol = u.tol
  capovf  : s.capovf = u.capovf
  capcnt  : s.capcnt = u.capcnt
  entries : captured s = captured u

/-- The entries below `CAPCNT` are all of `captured` (R16). -/
theorem captured_congr {s u : State} (hc : s.capcnt = u.capcnt)
    (he : ∀ j : Fin 67, j.val < s.capcnt.toNat → s.cap[j] = u.cap[j]) : captured s = captured u := by
  refine List.ext_getElem (by simp [captured, hc]) fun j hj _ => ?_
  simp only [captured, List.length_take, Vector.length_toList, lt_inf_iff] at hj
  simpa [captured] using he ⟨j, hj.2⟩ hj.1

theorem DecodesAlike.decodeCapture {s u : State} (h : DecodesAlike s u) : decodeCapture s = decodeCapture u := by
  simp only [Machine.decodeCapture, h.entries, h.capcnt, h.tol, h.proto]

/-- Settles O34: two states that agree on what `DECODE` reads take the same one of its three outcomes, and a publish
writes the same values in both. -/
theorem decodeReadsOnlyItsInputs : Obligations.DecodeReadsOnlyItsInputs := by
  unfold Obligations.DecodeReadsOnlyItsInputs
  intro s u t v hproto htol hovf hcnt hcap ht hv
  have hsu : DecodesAlike s u := ⟨hproto, htol, hovf, hcnt, captured_congr hcnt hcap⟩
  cases ho : s.capovf with
  | true =>
    cases (execDecode_of_overflow ho).symm.trans ht
    cases (execDecode_of_overflow (hovf ▸ ho)).symm.trans hv
    simp
  | false =>
    have ho' : u.capovf = false := hovf ▸ ho
    cases hd : decodeCapture s with
    | none =>
      cases (execDecode_of_none ho hd).symm.trans ht
      cases (execDecode_of_none ho' (hsu.decodeCapture ▸ hd)).symm.trans hv
      simp
    | some r =>
      obtain ⟨id, m⟩ := r
      cases (execDecode_of_some ho hd).symm.trans ht
      cases (execDecode_of_some ho' (hsu.decodeCapture ▸ hd)).symm.trans hv
      simp [SameHolder, hsu.entries, hcnt]

end Sys2Proof.Machine
end

section
/-! `LOADCAP` (R79): the capture buffer after a list of pushes. -/

namespace Sys2Proof.Machine

/-- `t` differs from `s` in the capture buffer and the response only, and its stream is idle. -/
def OnlyCaptureChanged (s t : State) : Prop :=
  t = { s with cap := t.cap, capcnt := t.capcnt, capovf := t.capovf, rsp := t.rsp, tx := [] }

theorem onlyCaptureChanged_refl {s : State} (h : s.tx = []) : OnlyCaptureChanged s s := by
  cases s; cases h; rfl

theorem OnlyCaptureChanged.trans {s t u : State} (hst : OnlyCaptureChanged s t) (htu : OnlyCaptureChanged t u) :
    OnlyCaptureChanged s u := by
  unfold OnlyCaptureChanged at *
  rw [hst] at htu
  exact htu

/-- The capture buffer of `s` holds the durations `ds` up to its 67 entries, and says whether there were more. -/
structure HoldsCapture (s : State) (ds : List Duration) : Prop where
  count    : s.capcnt.toNat = min ds.length 67
  overflow : s.capovf = decide (67 < ds.length)
  entries  : captured s = ds.take 67

theorem HoldsCapture.overflow_iff {s : State} {ds : List Duration} (h : HoldsCapture s ds) :
    s.capovf = true ↔ 67 < ds.length := by
  rw [h.overflow, decide_eq_true_iff]

/-- The buffer right after `CAPCLR`. -/
theorem holdsCapture_nil (d : Payload) (s : State) : HoldsCapture (respond d (clearCapture s)) [] where
  count    := rfl
  overflow := rfl
  entries  := rfl

/-- A push on a buffer that is not full appends its duration to the entries (R132). -/
theorem captured_pushCapture {s : State} (d : Duration) (h : s.capcnt.toNat < 67) :
    captured (pushCapture d s) = captured s ++ [d] := by
  have hlt : s.capcnt.toNat < (s.cap.toList.set s.capcnt.toNat d).length := by simpa using h
  calc captured (pushCapture d s)
      = (s.cap.toList.set s.capcnt.toNat d).take (s.capcnt.toNat + 1) := by
        rw [captured, pushCapture_cap, pushCapture_capcnt, capcnt_succ_toNat h, Vector.toList_setIfInBounds]
    _ = captured s ++ [d] := by
        rw [List.take_succ_eq_append_getElem hlt, List.getElem_set_self, List.take_set_of_le (Nat.le_refl _)]
        rfl

/-- A push on a full buffer: the overflow is remembered, the entries stand (R17, R132). -/
theorem HoldsCapture.push_full {s : State} {ds : List Duration} (hs : HoldsCapture s ds) (d : Duration)
    (hc : s.capcnt.toNat = 67) : HoldsCapture (raiseError .captureOverflow (setCapovf s)) (ds ++ [d]) := by
  obtain ⟨hcount, -, hentries⟩ := hs
  have hlen : 67 ≤ ds.length := by omega
  exact {
    count    := by
      simp only [raiseError_capcnt, setCapovf_capcnt, List.length_append, List.length_singleton]
      omega
    overflow := (decide_eq_true (by rw [List.length_append, List.length_singleton]; omega)).symm
    entries  := hentries.trans (List.take_append_of_le_length hlen).symm }

/-- A push on a buffer that is not full: one more entry (R132). -/
theorem HoldsCapture.push_room {s : State} {ds : List Duration} (hs : HoldsCapture s ds) (d : Duration)
    (hc : s.capcnt.toNat ≠ 67) (r : Payload) : HoldsCapture (respond r (pushCapture d s)) (ds ++ [d]) := by
  obtain ⟨hcount, hoverflow, hentries⟩ := hs
  have hlen : ds.length < 67 := by omega
  exact {
    count    := by
      rw [respond_capcnt, pushCapture_capcnt, capcnt_succ_toNat (by omega), List.length_append, List.length_singleton]
      omega
    overflow := by
      rw [respond_capovf, pushCapture_capovf, hoverflow, List.length_append, List.length_singleton, decide_eq_decide]
      omega
    entries  := by
      rw [List.take_of_length_le (by omega)] at hentries
      rw [List.take_of_length_le (by rw [List.length_append, List.length_singleton]; omega), ← hentries]
      exact captured_pushCapture d (by omega) }

theorem exec_cappush_holdsCapture {s : State} {ds : List Duration} (hs : HoldsCapture s ds) (d : Duration) :
    ∃ t, exec (.cappush d) s = .next t ∧ HoldsCapture t (ds ++ [d]) ∧ OnlyCaptureChanged s t ∧ t.tx = [] := by
  by_cases hc : s.capcnt.toNat = 67
  · exact ⟨_, execCappush_of_full d hc, hs.push_full d hc, rfl, rfl⟩
  · exact ⟨_, execCappush_of_room d hc, hs.push_room d hc _, rfl, rfl⟩

/-- Pushes issued one after another, on a buffer that already holds `ds`. -/
theorem issue_cappush {s : State} {ds : List Duration} (new : List Duration) (hs : HoldsCapture s ds)
    (htx : s.tx = []) :
    ∃ t, issue false (new.map .cappush) s = .next t ∧ HoldsCapture t (ds ++ new) ∧ OnlyCaptureChanged s t := by
  induction new generalizing s ds with
  | nil => exact ⟨s, rfl, by rwa [List.append_nil], onlyCaptureChanged_refl htx⟩
  | cons d new ih =>
    obtain ⟨u, hu, hbuf, hsu, hutx⟩ := exec_cappush_holdsCapture hs d
    obtain ⟨t, ht, hall, hut⟩ := ih hbuf hutx
    refine ⟨t, ?_, by simpa using hall, hsu.trans hut⟩
    rw [List.map_cons, issue_cons hu]
    exact ht

/-- Settles O29: `CAPCLR` empties the buffer, and each `CAPPUSH` keeps `HoldsCapture` of the durations issued so far. -/
theorem loadcapLoadsCapture : Obligations.LoadcapLoadsCapture := by
  unfold Obligations.LoadcapLoadsCapture
  intro s ds
  obtain ⟨t, ht, hbuf, hframe⟩ := issue_cappush ds (holdsCapture_nil 0 s) rfl
  rw [List.nil_append] at hbuf
  have hclear : OnlyCaptureChanged s (respond 0 (clearCapture s)) := rfl
  refine ⟨t, t.rsp, ht, hbuf.count, hbuf.overflow_iff, ?_, hclear.trans hframe⟩
  rw [← hbuf.count]
  exact hbuf.entries

end Sys2Proof.Machine
end

section
/-! A command word over a byte-wide link (R42): its bytes, and their value, for every number of bytes. -/

namespace Sys2Proof

@[simp] theorem bytesOf_zero {w : Nat} (v : BitVec w) : bytesOf 0 v = [] := rfl

/-- The most significant byte goes first (R42). -/
theorem bytesOf_succ {w : Nat} (n : Nat) (v : BitVec w) :
    bytesOf (n + 1) v = v.extractLsb' (8 * n) 8 :: bytesOf n v := by
  simp [bytesOf, List.range_succ_eq_map, Nat.sub_sub, Nat.add_comm 1]

@[simp] theorem bytesOf_length {w : Nat} (n : Nat) (v : BitVec w) : (bytesOf n v).length = n := by
  simp [bytesOf]

/-- The byte at bit `8 * n`, as a digit to base 256. -/
theorem extractByte_toNat {w : Nat} (n : Nat) (v : BitVec w) :
    (v.extractLsb' (8 * n) 8).toNat = v.toNat / 256 ^ n % 256 := by
  rw [BitVec.extractLsb'_toNat, Nat.shiftRight_eq_div_pow, Nat.pow_mul]

/-- Reading on from `acc`: the bytes of `v` push it up and are the digits below it. -/
theorem foldl_bytesOf {w : Nat} (n : Nat) (v : BitVec w) (acc : Nat) :
    (bytesOf n v).foldl (fun acc b => 256 * acc + b.toNat) acc = acc * 256 ^ n + v.toNat % 256 ^ n := by
  induction n generalizing acc with
  | zero => simp [Nat.mod_one]
  | succ n ih =>
    rw [bytesOf_succ, List.foldl_cons, ih, extractByte_toNat, Nat.mod_pow_succ]
    ring

theorem bytesValue_bytesOf {w : Nat} (n : Nat) (v : BitVec w) : bytesValue (bytesOf n v) = v.toNat % 256 ^ n := by
  rw [bytesValue, foldl_bytesOf, Nat.zero_mul, Nat.zero_add]

/-- Ten bytes hold all 80 bits of a command word (R42, R61). -/
theorem wordOfBytes_bytesOf (w : CmdWord) : wordOfBytes (bytesOf 10 w) = .ok w := by
  have hvalue : bytesValue (bytesOf 10 w) = w.toNat := by
    rw [bytesValue_bytesOf]
    exact Nat.mod_eq_of_lt w.isLt
  rw [wordOfBytes, if_pos (bytesOf_length 10 w), hvalue, BitVec.ofNat_toNat, BitVec.setWidth_eq]

/-- Settles O9: the ten bytes are the word's digits to base 256, and the first of them stands at bit 72. -/
theorem serialisedWordArrives : Obligations.SerialisedWordArrives := by
  unfold Obligations.SerialisedWordArrives
  intro w
  refine ⟨wordOfBytes_bytesOf w, ?_⟩
  rw [bytesOf_succ, List.getElem?_cons_zero]

end Sys2Proof
end

section
/-! A step that takes a command word (R47, R77, R227). -/

namespace Sys2Proof.Machine

/-- A word that decodes is its command, executed in the state with the event taken. -/
theorem step_of_decoded {s : State} {w : CmdWord} {rest : List PortInput} {i : Instr}
    (h : s.inputs = .command w :: rest) (hd : decode w = .ok i) : step s = exec i (withInputs rest s) := by
  rw [step, takeInput_command h, runWord_of_ok _ hd]

/-- Taking the word just presented leaves the state it was presented to. -/
theorem withInputs_presentWord (w : CmdWord) (s : State) : withInputs s.inputs (presentWord w s) = s := rfl

theorem decode_of_decodeTableWord {nbits w : Nat} {i : Instr} (h : decodeTableWord nbits w = some i) :
    decode (tableWord nbits w) = .ok i := by
  unfold decodeTableWord at h
  cases hd : decode (tableWord nbits w) with
  | ok j => simpa [hd, Except.toOption] using h
  | error e => simp [hd, Except.toOption] at h

/-- Settles O7: both clauses are a step on a word that decodes; the word presented is the next event, and taking it gives
the state back. -/
theorem stepRunsDecodedCommand : Obligations.StepRunsDecodedCommand := by
  unfold Obligations.StepRunsDecodedCommand
  refine ⟨fun s w rest i h hd => step_of_decoded h hd, fun s w i h => ?_⟩
  have hstep := step_of_decoded (presentWord_inputs (tableWord 80 w) s) (decode_of_decodeTableWord h)
  rwa [withInputs_presentWord] at hstep

end Sys2Proof.Machine
end

section
/-! The decoder and the encoder are inverse to each other on well-formed commands (R61 to R68, R70, R77): first format by
format, then over the opcode map. -/

namespace Sys2Proof

/-! What a format decodes from the payload it encodes (R62 to R68). -/

theorem decodeZ_payloadZ (op : Byte) (i : Instr) : decodeZ op payloadZ i = .ok i := by
  simp [decodeZ, whenClear]

theorem decodeB_payloadB (op : Byte) (mk : Byte → Instr) (x : Byte) : decodeB op (payloadB x) mk = .ok (mk x) := by
  simp [decodeB, whenClear]

theorem decodeH_payloadH (op : Byte) (mk : BitVec 16 → Instr) (x : BitVec 16) :
    decodeH op (payloadH x) mk = .ok (mk x) := by
  simp [decodeH, whenClear]

theorem decodeW_payloadW (op : Byte) (mk : BitVec 32 → Instr) (x : BitVec 32) :
    decodeW op (payloadW x) mk = .ok (mk x) := by
  simp [decodeW, whenClear]

theorem decodeL_payloadL (op : Byte) (mk : Byte → BitVec 32 → Instr) (x : Byte) (y : BitVec 32) :
    decodeL op (payloadL x y) mk = .ok (mk x y) := by
  simp [decodeL, whenClear]

theorem decodeT_payloadT (mk : Byte → BitVec 64 → Instr) (x : Byte) (y : BitVec 64) :
    decodeT (payloadT x y) mk = .ok (mk x y) := by
  simp [decodeT]

theorem decodeP_of_clear (op : Byte) (mk : Payload → Instr) {prec : Payload} (h : Machine.precReserved prec = 0) :
    decodeP op prec mk = .ok (mk prec) := by
  simp [decodeP, whenClear, h]

/-! Over the opcode map (R70). -/

/-- The map sends every command's opcode to the decoder of its format. -/
theorem decodeFields_of_wellFormed {i : Instr} (h : i.wellFormed = true) :
    decodeFields i.opcode i.payload = .ok i := by
  cases i with
  | protoat x => exact decodeB_payloadB 0x10 .protoat x
  | setproto x => exact decodeB_payloadB 0x11 .setproto x
  | setprotof prec => exact decodeP_of_clear 0x12 .setprotof (Laws.pl_reserved h)
  | setpulse x => exact decodeH_payloadH 0x13 .setpulse x
  | setrep x => exact decodeB_payloadB 0x20 .setrep x
  | enct x y => exact decodeT_payloadT .enct x y
  | encb x y => exact decodeL_payloadL 0x22 .encb x y
  | settol x => exact decodeB_payloadB 0x30 .settol x
  | cappush x => exact decodeW_payloadW 0x32 .cappush x
  | getraw x => exact decodeB_payloadB 0x46 .getraw x
  | nop | getcur | capclr | decode | avail | rstavail | getval | getlen | getdly | getproto | getcfg =>
    exact decodeZ_payloadZ _ _

theorem decode_encode {i : Instr} (h : i.wellFormed = true) : decode (encode i) = .ok i := by
  rw [encode, decode_cmdWord]
  exact decodeFields_of_wellFormed h

/-- The fields `op` and `pl` are those of the well-formed command `i`. -/
def SpellsFields (op : Byte) (pl : Payload) (i : Instr) : Prop :=
  i.wellFormed = true ∧ op = i.opcode ∧ pl = i.payload

/-! Each format answers only commands that spell the payload it was given. -/

theorem spells_of_decodeZ {op : Byte} {pl : Payload} {j i : Instr} (hj : SpellsFields op payloadZ j)
    (h : decodeZ op pl j = .ok i) : SpellsFields op pl i := by
  obtain ⟨rfl, rfl⟩ := decodeZ_eq_ok h
  exact hj

theorem spells_of_decodeB {op : Byte} {pl : Payload} (mk : Byte → Instr) {i : Instr}
    (hmk : ∀ x, SpellsFields op (payloadB x) (mk x)) (h : decodeB op pl mk = .ok i) : SpellsFields op pl i := by
  obtain ⟨x, rfl, rfl⟩ := decodeB_eq_ok h
  exact hmk x

theorem spells_of_decodeH {op : Byte} {pl : Payload} (mk : BitVec 16 → Instr) {i : Instr}
    (hmk : ∀ x, SpellsFields op (payloadH x) (mk x)) (h : decodeH op pl mk = .ok i) : SpellsFields op pl i := by
  obtain ⟨x, rfl, rfl⟩ := decodeH_eq_ok h
  exact hmk x

theorem spells_of_decodeW {op : Byte} {pl : Payload} (mk : BitVec 32 → Instr) {i : Instr}
    (hmk : ∀ x, SpellsFields op (payloadW x) (mk x)) (h : decodeW op pl mk = .ok i) : SpellsFields op pl i := by
  obtain ⟨x, rfl, rfl⟩ := decodeW_eq_ok h
  exact hmk x

theorem spells_of_decodeL {op : Byte} {pl : Payload} (mk : Byte → BitVec 32 → Instr) {i : Instr}
    (hmk : ∀ x y, SpellsFields op (payloadL x y) (mk x y)) (h : decodeL op pl mk = .ok i) : SpellsFields op pl i := by
  obtain ⟨x, y, rfl, rfl⟩ := decodeL_eq_ok h
  exact hmk x y

theorem spells_of_decodeT {op : Byte} {pl : Payload} (mk : Byte → BitVec 64 → Instr) {i : Instr}
    (hmk : ∀ x y, SpellsFields op (payloadT x y) (mk x y)) (h : decodeT pl mk = .ok i) : SpellsFields op pl i := by
  obtain ⟨x, y, rfl, rfl⟩ := decodeT_eq_ok h
  exact hmk x y

theorem spells_of_decodeP {op : Byte} {pl : Payload} (mk : Payload → Instr) {i : Instr}
    (hmk : ∀ prec, Machine.precReserved prec = 0 → SpellsFields op prec (mk prec)) (h : decodeP op pl mk = .ok i) :
    SpellsFields op pl i := by
  obtain ⟨hclear, rfl⟩ := decodeP_eq_ok h
  exact hmk pl hclear

/-- From the opcode of a command, only well-formed commands with that opcode and the given payload are decoded. -/
theorem spells_of_decodeFields_opcode (k : Instr) {pl : Payload} {i : Instr} (h : decodeFields k.opcode pl = .ok i) :
    SpellsFields k.opcode pl i := by
  cases k with
  | protoat => exact spells_of_decodeB .protoat (fun _ => ⟨rfl, rfl, rfl⟩) h
  | setproto => exact spells_of_decodeB .setproto (fun _ => ⟨rfl, rfl, rfl⟩) h
  | setprotof =>
    exact spells_of_decodeP .setprotof (fun _ hclear => ⟨by simpa [Instr.wellFormed] using hclear, rfl, rfl⟩) h
  | setpulse => exact spells_of_decodeH .setpulse (fun _ => ⟨rfl, rfl, rfl⟩) h
  | setrep => exact spells_of_decodeB .setrep (fun _ => ⟨rfl, rfl, rfl⟩) h
  | enct => exact spells_of_decodeT .enct (fun _ _ => ⟨rfl, rfl, rfl⟩) h
  | encb => exact spells_of_decodeL .encb (fun _ _ => ⟨rfl, rfl, rfl⟩) h
  | settol => exact spells_of_decodeB .settol (fun _ => ⟨rfl, rfl, rfl⟩) h
  | cappush => exact spells_of_decodeW .cappush (fun _ => ⟨rfl, rfl, rfl⟩) h
  | getraw => exact spells_of_decodeB .getraw (fun _ => ⟨rfl, rfl, rfl⟩) h
  | nop | getcur | capclr | decode | avail | rstavail | getval | getlen | getdly | getproto | getcfg =>
    exact spells_of_decodeZ ⟨rfl, rfl, rfl⟩ h

/-- An opcode outside the map is rejected, whatever the payload (R71). -/
theorem decodeFields_of_not_mem {op : Byte} (h : op ∉ Claims.opcodes) (pl : Payload) :
    decodeFields op pl = .error (.illegalOpcode op) := by
  have hne : op.toNat ∉ Claims.opcodes.map BitVec.toNat := by
    simpa [Claims.opcodes, ← BitVec.toNat_inj] using h
  unfold decodeFields
  split
  case h_22 => rfl
  all_goals next hop => exact absurd (hop ▸ by decide) hne

/-- One command of each row of the opcode table, in its order (R70). -/
def commandPerRow : List Instr :=
  [.nop, .protoat 0, .setproto 0, .setprotof 0, .setpulse 0, .getcur, .setrep 0, .enct 0 0, .encb 0 0, .settol 0,
   .capclr, .cappush 0, .decode, .avail, .rstavail, .getval, .getlen, .getdly, .getproto, .getraw 0, .getcfg]

/-- The opcodes of the map are the opcodes of the commands (R70). -/
theorem mem_opcodes_iff {op : Byte} : op ∈ Claims.opcodes ↔ ∃ i : Instr, i.opcode = op := by
  have hrows : Claims.opcodes = commandPerRow.map Instr.opcode := rfl
  constructor
  · intro h
    obtain ⟨i, -, hi⟩ := List.mem_map.mp (hrows ▸ h)
    exact ⟨i, hi⟩
  · rintro ⟨i, rfl⟩
    cases i <;> simp [Claims.opcodes, Instr.opcode]

/-- Two fields decode to a command exactly if they are that command's. -/
theorem decodeFields_eq_ok_iff {op : Byte} {pl : Payload} {i : Instr} :
    decodeFields op pl = .ok i ↔ SpellsFields op pl i := by
  constructor
  · intro h
    have hmem : op ∈ Claims.opcodes := by
      by_contra hne
      rw [decodeFields_of_not_mem hne] at h
      cases h
    obtain ⟨k, rfl⟩ := mem_opcodes_iff.mp hmem
    exact spells_of_decodeFields_opcode k h
  · rintro ⟨hwf, rfl, rfl⟩
    exact decodeFields_of_wellFormed hwf

/-- A word decodes to a command exactly if the command is well formed and the word is its encoding. -/
theorem decode_eq_ok_iff {w : CmdWord} {i : Instr} : decode w = .ok i ↔ i.wellFormed = true ∧ encode i = w := by
  constructor
  · intro h
    obtain ⟨hwf, hop, hpl⟩ := decodeFields_eq_ok_iff.mp h
    exact ⟨hwf, by rw [encode, ← hop, ← hpl, cmdWord_fields]⟩
  · rintro ⟨hwf, rfl⟩
    exact decode_encode hwf

/-- Settles O1: the opcode map sends the encoding to the decoder of its format, which reads back every operand. -/
theorem decodeInvertsEncode : Obligations.DecodeInvertsEncode := by
  unfold Obligations.DecodeInvertsEncode
  exact fun i hwf => decode_encode hwf

/-- Settles O2: the fields of a word that decodes are the opcode and the payload of its command, and they are the word. -/
theorem decodedWordIsItsEncoding : Obligations.DecodedWordIsItsEncoding := by
  unfold Obligations.DecodedWordIsItsEncoding
  exact fun w i h => decode_eq_ok_iff.mp h

end Sys2Proof
end

section
/-! The rows of spec/opcode_table.json (R70): a word decodes exactly if it matches one. -/

namespace Sys2Proof

open Sys2Proof.Claims Sys2Proof.Laws

/-- Where a mask is all ones, a masked word agrees with the word. -/
theorem extract_of_masked {w lo len : Nat} {x mask mtch : BitVec w} (h : x &&& mask = mtch)
    (hmask : mask.extractLsb' lo len = BitVec.allOnes len) : x.extractLsb' lo len = mtch.extractLsb' lo len := by
  rw [← h, BitVec.extractLsb'_and, hmask, BitVec.and_allOnes]

/-- A field of the payload is the same field of the word (R61). -/
theorem plField_extract (w : CmdWord) {lo len : Nat} (h : lo + len ≤ 72) :
    (plField w).extractLsb' lo len = w.extractLsb' lo len := by
  rw [plField, Machine.extract_extract w 0 72 lo len h, Nat.zero_add]

theorem opcodeRows_eq : opcodeRows = commandPerRow.map fun i => (rowMatch i, rowMask i) := rfl

/-- Every command has its row in the table, whatever its operands. -/
theorem row_mem_opcodeRows (i : Instr) : (rowMatch i, rowMask i) ∈ opcodeRows := by
  cases i <;> dsimp only [rowMatch, rowMask] <;> decide

/-- A well-formed command's word matches its row, whichever command it is. -/
theorem encode_matches_row {i : Instr} (h : i.wellFormed = true) : encode i &&& rowMask i = rowMatch i := by
  have hrow : WordMatchesRow.Statement i := by
    cases i with
    | nop => exact WordMatchesRow.nop
    | protoat x => exact WordMatchesRow.protoat x
    | setproto x => exact WordMatchesRow.setproto x
    | setprotof prec => exact WordMatchesRow.setprotof prec
    | setpulse x => exact WordMatchesRow.setpulse x
    | getcur => exact WordMatchesRow.getcur
    | setrep x => exact WordMatchesRow.setrep x
    | enct x y => exact WordMatchesRow.enct x y
    | encb x y => exact WordMatchesRow.encb x y
    | settol x => exact WordMatchesRow.settol x
    | capclr => exact WordMatchesRow.capclr
    | cappush x => exact WordMatchesRow.cappush x
    | decode => exact WordMatchesRow.decode
    | avail => exact WordMatchesRow.avail
    | rstavail => exact WordMatchesRow.rstavail
    | getval => exact WordMatchesRow.getval
    | getlen => exact WordMatchesRow.getlen
    | getdly => exact WordMatchesRow.getdly
    | getproto => exact WordMatchesRow.getproto
    | getraw x => exact WordMatchesRow.getraw x
    | getcfg => exact WordMatchesRow.getcfg
  exact hrow h

/-- The lowest reserved payload bit of a command's format, and the number of reserved bits (R62 to R68). -/
def reservedSpan : Instr → Nat × Nat
  | .protoat _ | .setproto _ | .setrep _ | .settol _ | .getraw _ => (8, 64)
  | .setprotof _ => (1, 7)
  | .setpulse _ => (16, 56)
  | .enct _ _ => (72, 0)
  | .encb _ _ => (40, 32)
  | .cappush _ => (32, 40)
  | .nop | .getcur | .capclr | .decode | .avail | .rstavail | .getval | .getlen | .getdly | .getproto | .getcfg => (0, 72)

/-- Reserved bits that are zero are all a payload needs to be decoded from a command's opcode (R72, R77). -/
theorem decodeFields_of_reserved_zero (i : Instr) {pl : Payload}
    (h : pl.extractLsb' (reservedSpan i).1 (reservedSpan i).2 = 0) : ∃ j, decodeFields i.opcode pl = .ok j := by
  cases i with
  | setprotof => exact ⟨_, decodeP_of_clear 0x12 .setprotof h⟩
  | enct => exact ⟨_, rfl⟩
  | _ => exact ⟨_, whenClear_eq_ok.mpr ⟨reservedClear_eq_true.mpr h, rfl⟩⟩

/-- The match of a command's row holds the command's opcode. -/
theorem rowMatch_opcode (i : Instr) : (rowMatch i).extractLsb' 72 8 = i.opcode := by
  cases i <;> simp [rowMatch, Instr.opcode]

/-- The mask of each row covers the opcode. -/
theorem rowMask_opcode : ∀ i ∈ commandPerRow, (rowMask i).extractLsb' 72 8 = BitVec.allOnes 8 := by decide

/-- The mask of each row covers the reserved bits, and its match has them zero. -/
theorem row_reserved : ∀ i ∈ commandPerRow, (reservedSpan i).1 + (reservedSpan i).2 ≤ 72 ∧
    (rowMask i).extractLsb' (reservedSpan i).1 (reservedSpan i).2 = BitVec.allOnes (reservedSpan i).2 ∧
    (rowMatch i).extractLsb' (reservedSpan i).1 (reservedSpan i).2 = 0 := by decide

/-- A word that matches a row of the table decodes (R70, R72). -/
theorem decode_of_matches_row {w : CmdWord} {i : Instr} (hi : i ∈ commandPerRow) (h : w &&& rowMask i = rowMatch i) :
    ∃ j, decode w = .ok j := by
  obtain ⟨hle, hmask, hmatch⟩ := row_reserved i hi
  have hop : opField w = i.opcode := (extract_of_masked h (rowMask_opcode i hi)).trans (rowMatch_opcode i)
  have hres : (plField w).extractLsb' (reservedSpan i).1 (reservedSpan i).2 = 0 :=
    (plField_extract w hle).trans ((extract_of_masked h hmask).trans hmatch)
  rw [decode, hop]
  exact decodeFields_of_reserved_zero i hres

/-- A word that decodes to a command matches that command's row. -/
theorem matches_row_of_decode {w : CmdWord} {i : Instr} (h : decode w = .ok i) : w &&& rowMask i = rowMatch i := by
  obtain ⟨hwf, rfl⟩ := decode_eq_ok_iff.mp h
  exact encode_matches_row hwf

/-- Settles O3: a decoded word matches its command's row, and a row's mask covers the opcode and the reserved bits, which
are all the decoder checks. -/
theorem wordSpellsCommandIffInTable : Obligations.WordSpellsCommandIffInTable := by
  unfold Obligations.WordSpellsCommandIffInTable
  intro w
  constructor
  · rintro ⟨i, h⟩
    exact ⟨_, row_mem_opcodeRows i, matches_row_of_decode h⟩
  · rintro ⟨row, hrow, hw⟩
    obtain ⟨i, hi, rfl⟩ := List.mem_map.mp (opcodeRows_eq ▸ hrow)
    exact decode_of_matches_row hi hw

/-- An opcode has one row. -/
theorem row_unique {r r' : CmdWord × CmdWord} (hr : r ∈ opcodeRows) (hr' : r' ∈ opcodeRows)
    (h : r.1.extractLsb' 72 8 = r'.1.extractLsb' 72 8) : r = r' :=
  have hnodup : (opcodeRows.map fun row => row.1.extractLsb' 72 8).Nodup := by decide
  List.inj_on_of_nodup_map hnodup hr hr' h

/-- Settles O8: each word is closed, and the decoder computes its command. -/
theorem specWordsDecode : Obligations.SpecWordsDecode := by
  unfold Obligations.SpecWordsDecode
  refine ⟨?_, ?_, ?_, ?_, ?_, ?_, ?_⟩ <;> decide

end Sys2Proof
end

section
/-! The packed Protocol record from its bits: packing what was unpacked gives the record back (R68, R69). -/

namespace Sys2Proof.Machine

/-- The two bytes of an unpacked HighLow are the sixteen bits it was read from (R69). -/
theorem packHighLow_unpackHighLow (prec : Payload) (lo : Nat) :
    packHighLow (unpackHighLow prec lo) = prec.extractLsb' lo 16 :=
  BitVec.extractLsb'_append_extractLsb'_eq_extractLsb' rfl

/-- The polarity bit as a field of width one (R68). -/
theorem ofBool_getLsbD_zero (prec : Payload) : BitVec.ofBool (prec.getLsbD 0) = prec.extractLsb' 0 1 := by
  apply BitVec.eq_of_getLsbD_eq
  intro i hi
  obtain rfl : i = 0 := by omega
  simp

/-- The fields of a record stand next to each other from bit 71 to bit 0 (R68). -/
theorem record_of_fields (prec : Payload) :
    prec.extractLsb' 56 16 ++ prec.extractLsb' 40 16 ++ prec.extractLsb' 24 16 ++ prec.extractLsb' 8 16
      ++ prec.extractLsb' 1 7 ++ prec.extractLsb' 0 1 = prec := by
  have join {hi lo n m : Nat} (h : hi = lo + m) :
      prec.extractLsb' hi n ++ prec.extractLsb' lo m = prec.extractLsb' lo (n + m) :=
    BitVec.extractLsb'_append_extractLsb'_eq_extractLsb' h
  rw [join (hi := 56) (lo := 40) rfl, join (hi := 40) (lo := 24) rfl, join (hi := 24) (lo := 8) rfl,
    join (hi := 8) (lo := 1) rfl, join (hi := 1) (lo := 0) rfl]
  exact BitVec.extractLsb'_eq_self

/-- Packing what was unpacked gives the record back, if its reserved bits are zero (R68). -/
theorem packProtocol_unpackProtocol {prec : Payload} (h : precReserved prec = 0) :
    packProtocol (unpackProtocol prec) = prec := by
  have hres : 0#7 = prec.extractLsb' 1 7 := h.symm
  simp only [packProtocol, unpackProtocol, packHighLow_unpackHighLow, ofBool_getLsbD_zero, hres]
  exact record_of_fields prec

/-- Settles O10: each field is read back from its own bits, and the fields side by side are the whole record. -/
theorem packedRecordLayout : Obligations.PackedRecordLayout := by
  unfold Obligations.PackedRecordLayout
  refine ⟨fun p => ?_, fun prec h => packProtocol_unpackProtocol h, by decide, by decide⟩
  have hsync := unpackHighLow_eq (packProtocol_syncFactor p)
  have hzero := unpackHighLow_eq (packProtocol_zero p)
  have hone := unpackHighLow_eq (packProtocol_one p)
  exact ⟨packProtocol_pulseLength p, congrArg HighLow.high hsync, congrArg HighLow.low hsync,
    congrArg HighLow.high hzero, congrArg HighLow.low hzero, congrArg HighLow.high hone, congrArg HighLow.low hone,
    precReserved_packProtocol p, packProtocol_inverted p, unpackProtocol_packProtocol p⟩

end Sys2Proof.Machine
end

section
/-! What the block answers to a word: its command's response, or `IllegalCommand` (R71 to R74, R77). -/

namespace Sys2Proof.Machine

open Sys2Proof.Claims Sys2Proof.Laws

/-- Every word is answered: by its command, or with `IllegalCommand` (R77). -/
theorem runWord_answers (w : CmdWord) (s : State) : ∃ t, runWord w s = .next t := by
  cases hd : decode w with
  | ok i =>
    obtain ⟨t, ht, -⟩ := exec_effect i s
    exact ⟨t, by rw [runWord_of_ok s hd, ht]⟩
  | error e => exact ⟨_, runWord_of_error s hd⟩

/-- Settles O47: a step takes one of the four kinds of input, and each has a next state. -/
theorem everyStepAnswersNext : Obligations.EveryStepAnswersNext := by
  unfold Obligations.EveryStepAnswersNext step
  intro s
  cases hin : s.inputs with
  | nil => exact ⟨_, takeInput_nil hin⟩
  | cons e rest =>
    cases e with
    | command w =>
      rw [takeInput_command hin]
      exact runWord_answers w _
    | reset => exact ⟨_, takeInput_reset hin⟩
    | resetDuring w =>
      obtain ⟨u, hu⟩ := runWord_answers w (withInputs rest s)
      rw [takeInput_resetDuring hin]
      exact ⟨_, runAbandoned_of_next hu⟩

/-- A word that spells no command is answered with `IllegalCommand`, and no register changes (R71, R72). -/
theorem step_of_undecodable {s : State} {w : CmdWord} {rest : List PortInput} (h : s.inputs = .command w :: rest)
    (hw : ∀ i, decode w ≠ .ok i) :
    step s = .next { s with inputs := rest, rsp := errRsp .illegalCommand, tx := [] } := by
  cases hd : decode w with
  | ok i => exact absurd hd (hw i)
  | error e =>
    rw [step, takeInput_command h, runWord_of_error _ hd]
    rfl

/-- The opcode of a word that decodes is its command's (R70). -/
theorem opcode_of_decode {w : CmdWord} {i : Instr} (h : decode w = .ok i) : w.extractLsb' 72 8 = i.opcode := by
  obtain ⟨-, hop, -⟩ := decodeFields_eq_ok_iff.mp h
  exact hop

/-- Settles O4: a word that decodes has its command's opcode, so one with an opcode outside the map decodes to nothing. -/
theorem illegalOpcodeRaises : Obligations.IllegalOpcodeRaises := by
  unfold Obligations.IllegalOpcodeRaises
  refine ⟨by decide, rfl, fun s w rest hin hop => step_of_undecodable hin fun i hd => ?_⟩
  exact hop (mem_opcodes_iff.mpr ⟨i, (opcode_of_decode hd).symm⟩)

/-- Settles O5: a word that decodes matches its command's row, and an opcode has one row, so a word that misses the row of
its opcode decodes to nothing. -/
theorem reservedBitRaises : Obligations.ReservedBitRaises := by
  unfold Obligations.ReservedBitRaises
  refine ⟨fun s w rest hin row hrow hop hmiss => step_of_undecodable hin fun i hd => hmiss ?_, fun pl => decode_append _ pl⟩
  have hsame : row = (rowMatch i, rowMask i) :=
    row_unique hrow (row_mem_opcodeRows i) (hop.symm.trans ((opcode_of_decode hd).trans (rowMatch_opcode i).symm))
  rw [hsame]
  exact matches_row_of_decode hd

/-- Settles O6: the zero word is the encoding of `NOP`, which only responds. -/
theorem allZeroWordIsNop : Obligations.AllZeroWordIsNop := by
  unfold Obligations.AllZeroWordIsNop
  have hd : decode 0 = .ok .nop := decode_encode (i := .nop) rfl
  exact ⟨hd, fun s rest hin => step_of_decoded hin hd⟩

theorem statusCode_le (e : Status) : (statusCode e).toNat ≤ 5 := by
  cases e <;> decide

/-- Settles O11: the code on the port is the code of some status. -/
theorem statusCodesAsTabled : Obligations.StatusCodesAsTabled := by
  unfold Obligations.StatusCodesAsTabled
  refine ⟨rfl, rfl, rfl, rfl, rfl, rfl, fun s c hc => ?_⟩
  obtain ⟨r, -, rfl⟩ := Option.map_eq_some_iff.mp hc
  exact statusCode_le r.status

end Sys2Proof.Machine
end

section
/-! The pseudo-commands `SETPROTOPL` and `SEND` (R79), from what their commands answer. -/

namespace Sys2Proof.Machine

open Sys2Proof.Claims

/-! `SETPROTO` and `SETPULSE`, outcome by outcome (R93, R95). -/

theorem exec_setproto_of_stored {s : State} {id : Byte} {p : Protocol} (h : protocolAt s id = some p) :
    exec (.setproto id) s = .next (respond 0 (setCurp p s)) := by
  simp [exec, execSetproto, h]

theorem exec_setproto_of_none {s : State} {id : Byte} (h : protocolAt s id = none) :
    exec (.setproto id) s = .next (raiseError .invalidProtocol s) := by
  simp [exec, execSetproto, h]

theorem exec_setpulse_zero (s : State) : exec (.setpulse 0) s = .next (raiseError .invalidProtocol s) := rfl

theorem exec_setpulse_of_ne_zero {pl16 : BitVec 16} (h : pl16 ≠ 0) (s : State) :
    exec (.setpulse pl16) s = .next (respond 0 (setCurpPulse pl16 s)) := by
  have hne : pl16.toNat ≠ 0 := fun h0 => h (BitVec.eq_of_toNat_eq h0)
  simp [exec, execSetpulse, hne]

/-! Issuing (R79, R199). -/

@[simp] theorem raised_respond (d : Payload) (s : State) : raised (respond d s) = false := rfl

theorem raised_raiseError {e : Status} (h : e ≠ .ok) (s : State) : raised (raiseError e s) = true := by
  simp [raised, h]

/-- Issuing one command is executing it. -/
theorem issue_one (stop : Bool) (i : Instr) (s : State) : issue stop [i] s = exec i s := by
  obtain ⟨t, ht, -⟩ := exec_effect i s
  rw [issue_cons ht, issue_nil, ite_self, ht]

/-- After a command that answered `OK`, the rest is issued. -/
theorem issue_cons_of_respond {stop : Bool} {i : Instr} {rest : List Instr} {s t : State} {d : Payload}
    (h : exec i s = .next (respond d t)) : issue stop (i :: rest) s = issue stop rest (respond d t) := by
  simp [issue_cons h]

/-- After a command that raised, a list that stops on an error is not issued further. -/
theorem issue_cons_of_raiseError {i : Instr} {rest : List Instr} {s t : State} {e : Status} (he : e ≠ .ok)
    (h : exec i s = .next (raiseError e t)) : issue true (i :: rest) s = .next (raiseError e t) := by
  simp [issue_cons h, raised_raiseError he]

/-- Settles O19: `SETPROTO` responds for a stored id, and then `SETPULSE` decides; for another id it raises, and that is
all. -/
theorem setprotoplSelectsAndOverrides : Obligations.SetprotoplSelectsAndOverrides := by
  unfold Obligations.SetprotoplSelectsAndOverrides
  refine ⟨fun s id pl16 p hid hp => ?stored, fun s id pl16 hid => ?bad, fun s len code => issue_one false _ s⟩
  case stored =>
    have hset := exec_setproto_of_stored (protocolAt_eq_some_iff.mpr ⟨hid, List.getElem?_eq_some_iff.mp hp⟩)
    have hissue : issuePseudo (.setprotopl id pl16) s = exec (.setpulse pl16) (respond 0 (setCurp p s)) :=
      (issue_cons_of_respond hset).trans (issue_one true _ _)
    rw [hissue]
    split
    · next h0 => rw [h0, exec_setpulse_zero]; rfl
    · next h0 => rw [exec_setpulse_of_ne_zero h0]; rfl
  case bad =>
    exact issue_cons_of_raiseError (by decide) (exec_setproto_of_none (protocolAt_eq_none_iff.mpr hid))

end Sys2Proof.Machine
end

section
/-! The formats (R62 to R68, R72): a payload whose reserved bits are zero spells the command, any other raises
`IllegalCommand`. -/

namespace Sys2Proof

open Sys2Proof.Machine Sys2Proof.Claims

/-- A legal opcode with a reserved bit that is 1 spells no command, so a step answers it with `IllegalCommand` (R72). -/
theorem raisesIllegal_of_decodeFields {op : Byte} {pl : Payload} (h : decodeFields op pl = .error (.reservedBits op)) :
    RaisesIllegal op (op ++ pl) := by
  have hd : decode (op ++ pl) = .error (.reservedBits op) := (decode_append op pl).trans h
  exact ⟨hd, fun s rest hin => step_of_undecodable hin fun i hi => by simp [hd] at hi⟩

/-- The check of the reserved bits decides what a word is (R72): a command if it passes, and `IllegalCommand` if not. -/
theorem decodes_or_raises {op : Byte} {pl : Payload} {i : Instr} {clear : Bool} {Clear : Prop} [Decidable Clear]
    (hd : decodeFields op pl = whenClear op clear i) (hc : clear = true ↔ Clear) :
    if Clear then decode (op ++ pl) = .ok i else RaisesIllegal op (op ++ pl) := by
  split
  · next h => rw [decode_append, hd, hc.mpr h]; rfl
  · next h =>
    have hfalse : clear = false := Bool.eq_false_iff.mpr (mt hc.mp h)
    exact raisesIllegal_of_decodeFields (by rw [hd, hfalse]; rfl)

/-! An opcode that the map sends to the decoder of a format has that format. -/

theorem formatZ_of_decodeFields {op : Byte} {i : Instr} (h : ∀ pl, decodeFields op pl = decodeZ op pl i) :
    FormatZ op i := by
  have hclear (pl : Payload) : reservedClear 0 pl = true ↔ pl = 0 := by
    rw [reservedClear_eq_true, BitVec.extractLsb'_eq_self]
  exact fun pl => decodes_or_raises (h pl) (hclear pl)

theorem formatB_of_decodeFields {op : Byte} {mk : Byte → Instr} (h : ∀ pl, decodeFields op pl = decodeB op pl mk) :
    FormatB op mk :=
  fun pl => decodes_or_raises (h pl) reservedClear_eq_true

theorem formatH_of_decodeFields {op : Byte} {mk : BitVec 16 → Instr}
    (h : ∀ pl, decodeFields op pl = decodeH op pl mk) : FormatH op mk :=
  fun pl => decodes_or_raises (h pl) reservedClear_eq_true

theorem formatP_of_decodeFields {op : Byte} {mk : Payload → Instr}
    (h : ∀ pl, decodeFields op pl = decodeP op pl mk) : FormatP op mk :=
  fun pl => decodes_or_raises (h pl) beq_iff_eq

end Sys2Proof
end

section
/-! The Protocol Table commands (R90 to R97): what each executes to, outcome by outcome, and its format. -/

namespace Sys2Proof.Machine

open Sys2Proof.Claims

/-! The record of an id, and the validity of a record (R90, R97). -/

/-- An id in `1 .. N` reads `PROTO[id]` (R90). -/
theorem protocolAt_of_stored {s : State} {id : Byte} {p : Protocol} (hid : 1 ≤ id.toNat)
    (hp : s.proto[id.toNat - 1]? = some p) : protocolAt s id = some p :=
  protocolAt_eq_some_iff.mpr ⟨hid, List.getElem?_eq_some_iff.mp hp⟩

/-- The model's test of a record is rule R97's list of seven numbers. -/
theorem validProtocol_iff_allPositive {p : Protocol} : validProtocol p = true ↔ AllPositive p := by
  simp [validProtocol, validHighLow, AllPositive, and_assoc]

/-! `PROTOAT` and `SETPROTOF`, outcome by outcome (R92, R94). -/

theorem exec_protoat_of_stored {s : State} {id : Byte} {p : Protocol} (h : protocolAt s id = some p) :
    exec (.protoat id) s = .next (respond (packProtocol p) s) := by
  simp [exec, execProtoat, h]

theorem exec_protoat_of_none {s : State} {id : Byte} (h : protocolAt s id = none) :
    exec (.protoat id) s = .next (raiseError .invalidProtocol s) := by
  simp [exec, execProtoat, h]

theorem exec_setprotof_of_reserved {prec : Payload} (h : precReserved prec ≠ 0) (s : State) :
    exec (.setprotof prec) s = .next (raiseError .illegalCommand s) := by
  simp only [exec, execSetprotof, if_pos h]

/-- With the reserved bits zero, the validity of the record decides (R94). -/
theorem exec_setprotof_of_clear {prec : Payload} (h : precReserved prec = 0) (s : State) :
    exec (.setprotof prec) s = .next (if AllPositive (unpackProtocol prec)
      then respond 0 (setCurp (unpackProtocol prec) s) else raiseError .invalidProtocol s) := by
  simp only [exec, execSetprotof, if_neg (not_not_intro h), validProtocol_iff_allPositive]

/-! The statements. -/

/-- Settles O12: `NOP` only responds, and its payload is all reserved. -/
theorem nopRespondsOk : Obligations.NopRespondsOk := by
  unfold Obligations.NopRespondsOk
  exact ⟨formatZ_of_decodeFields fun _ => rfl, fun _ => rfl⟩

/-- Settles O13: the command responds exactly where `protocolAt` answers a record, which is for the ids `1 .. N`. -/
theorem protoatReadsStoredRecord : Obligations.ProtoatReadsStoredRecord := by
  unfold Obligations.ProtoatReadsStoredRecord
  exact ⟨formatB_of_decodeFields fun _ => rfl,
    fun s id p hid hp => exec_protoat_of_stored (protocolAt_of_stored hid hp),
    fun s id hid => exec_protoat_of_none (protocolAt_eq_none_iff.mpr hid)⟩

/-- Settles O14: the command writes `CURP` exactly where `protocolAt` answers a record, which is for the ids `1 .. N`. -/
theorem setprotoInstallsStoredRecord : Obligations.SetprotoInstallsStoredRecord := by
  unfold Obligations.SetprotoInstallsStoredRecord
  exact ⟨formatB_of_decodeFields fun _ => rfl,
    fun s id p hid hp => exec_setproto_of_stored (protocolAt_of_stored hid hp),
    fun s id hid => exec_setproto_of_none (protocolAt_eq_none_iff.mpr hid)⟩

/-- Settles O15: a reserved bit raises before the record is looked at; with none, rule R97 decides. -/
theorem setprotofInstallsRecord : Obligations.SetprotofInstallsRecord := by
  unfold Obligations.SetprotofInstallsRecord
  refine ⟨formatP_of_decodeFields fun _ => rfl, fun s prec hres hpos => ?valid, fun s prec hres hpos => ?invalid,
    fun s prec hres => exec_setprotof_of_reserved hres s⟩
  case valid => rw [exec_setprotof_of_clear hres, if_pos hpos]; rfl
  case invalid => rw [exec_setprotof_of_clear hres, if_neg hpos]; rfl

/-- Settles O16: a positive pulse length is written into `CURP`, and 0 raises. -/
theorem setpulseOverridesPulseLength : Obligations.SetpulseOverridesPulseLength := by
  unfold Obligations.SetpulseOverridesPulseLength
  exact ⟨formatH_of_decodeFields fun _ => rfl, fun s pl16 h => exec_setpulse_of_ne_zero h s, exec_setpulse_zero⟩

/-- Settles O17: `GETCUR` only responds, and its payload is all reserved. -/
theorem getcurReadsCurrentProtocol : Obligations.GetcurReadsCurrentProtocol := by
  unfold Obligations.GetcurReadsCurrentProtocol
  exact ⟨formatZ_of_decodeFields fun _ => rfl, fun _ => rfl⟩

end Sys2Proof.Machine
end

section
/-! The entries of a pulse pair as numbers, and the stream an encode command leaves, as the statements describe it (R76,
R110, R112). -/

namespace Sys2Proof.Machine

open Sys2Proof.Claims

/-- The pair the encoder emits carries the two numbers rule R110 gives it, in the order of the polarity. -/
theorem emitPair_map_toNat (hl : HighLow) (p : Protocol) :
    (emitPair hl p).map BitVec.toNat =
      [(entriesOf hl p p.pulseLength.toNat).1, (entriesOf hl p p.pulseLength.toNat).2] := by
  unfold emitPair entriesOf
  split <;> simp

/-- A stream carries a pair where its sequence of durations holds the pair's two numbers. -/
theorem holdsPair_beats {l : List Duration} {k : Nat} {hl : HighLow} {p : Protocol}
    (h : ∀ c < 2, l[k + c]? = (emitPair hl p)[c]?) : HoldsPair (beats l) k (entriesOf hl p p.pulseLength.toNat) := by
  have hdata (c : Nat) (hc : c < 2) :
      ((beats l)[k + c]?).map (fun b => b.data.toNat) = ((emitPair hl p).map BitVec.toNat)[c]? := by
    rw [List.getElem?_map, ← h c hc, ← congrArg (·[k + c]?) (beats_data l), List.getElem?_map, Option.map_map]
    rfl
  rw [emitPair_map_toNat] at hdata
  exact ⟨hdata 0 (by decide), hdata 1 (by decide)⟩

/-- The stream of an encode command is the one rules R76 and R112 describe. -/
theorem streamOf_beats_encodeBits (bits : List Bool) (p : Protocol) (r : Nat) :
    StreamOf (beats (encodeBits bits p r)) bits p r where
  length := by simp
  data k hk i bit hbit := by
    obtain ⟨hi, rfl⟩ := List.getElem?_eq_some_iff.mp hbit
    refine holdsPair_beats fun c hc => ?_
    rw [Nat.add_assoc, encodeBits_getElem? _ _ _ _ _ hk (by omega), oneTransmission_data _ _ _ _ hi hc]
    rfl
  sync k hk := by
    refine holdsPair_beats fun c hc => ?_
    rw [Nat.add_assoc, encodeBits_getElem? _ _ _ _ _ hk (by omega), oneTransmission_sync]
  last k b hb := by
    obtain ⟨hk, rfl⟩ := List.getElem?_eq_some_iff.mp hb
    rw [beats_length] at hk
    simp [beats_getElem hk]

end Sys2Proof.Machine
end

section
/-! The code words of the encode commands (R67, R111, R113, R115, R116): which are legal, and the bits they stand for, read
from the operand's own bits. -/

namespace Sys2Proof.Machine

open Sys2Proof.Claims

/-- A used slot is the pair of bits `63-2k` and `62-2k` (R67): `0b11` is no symbol, any other pair stands for its bits. -/
theorem symbolOf_slotCode (slots : BitVec 64) {k : Nat} (hk : k < 32) :
    (symbolOf (slotCode slots k)).map symbolBits =
      if (slots.getLsbD (63 - 2 * k) && slots.getLsbD (62 - 2 * k)) = true then none else some (slotBits slots k) := by
  have hcode : slotCode slots k =
      BitVec.ofBool (slots.getLsbD (63 - 2 * k)) ++ BitVec.ofBool (slots.getLsbD (62 - 2 * k)) := by
    apply BitVec.eq_of_getLsbD_eq
    intro i hi
    obtain rfl | rfl : i = 0 ∨ i = 1 := by omega
    · rw [BitVec.getLsbD_append]
      simp [slotCode]
    · rw [BitVec.getLsbD_append]
      simp [slotCode, show 62 - 2 * k + 1 = 63 - 2 * k by omega]
  rw [hcode]
  unfold slotBits
  cases slots.getLsbD (63 - 2 * k) <;> cases slots.getLsbD (62 - 2 * k) <;> rfl

/-- A word that begins with a code: its first symbol's bits, then the bits of the rest, if both are legal (R111, R115). -/
theorem expand_symbolsOf_cons (c : BitVec 2) (cs : List (BitVec 2)) :
    (symbolsOf (c :: cs)).map expandWord =
      ((symbolOf c).map symbolBits).bind fun b => ((symbolsOf cs).map expandWord).map (b ++ ·) := by
  rw [symbolsOf]
  cases symbolOf c with
  | none => rfl
  | some x => cases symbolsOf cs <;> rfl

/-- The word a list of slots spells: none if one of them is bad, else their bits one after another. -/
theorem expand_symbolsOf_slots (slots : BitVec 64) {ks : List Nat} (hks : ∀ k ∈ ks, k < 32) :
    (symbolsOf (ks.map (slotCode slots))).map expandWord =
      if (ks.any fun k => slots.getLsbD (63 - 2 * k) && slots.getLsbD (62 - 2 * k)) = true then none
      else some (ks.flatMap (slotBits slots)) := by
  induction ks with
  | nil => rfl
  | cons k ks ih =>
    obtain ⟨hk, hks⟩ := List.forall_mem_cons.mp hks
    rw [List.map_cons, expand_symbolsOf_cons, symbolOf_slotCode slots hk, ih hks, List.any_cons, List.flatMap_cons]
    cases slots.getLsbD (63 - 2 * k) && slots.getLsbD (62 - 2 * k) with
    | true => rfl
    | false => rw [Bool.false_or, if_neg Bool.false_ne_true, Option.bind_some, apply_ite (Option.map _)]; rfl

/-- The word of the used slots (R67, R111, R115). -/
theorem expand_usedSlots {n : Nat} (hn : n ≤ 32) (slots : BitVec 64) :
    (symbolsOf (usedSlots n slots)).map expandWord =
      if hasBadSlot n slots = true then none else some (wordBits n slots) :=
  expand_symbolsOf_slots slots fun _ hk => Nat.lt_of_lt_of_le (List.mem_range.mp hk) hn

/-- `ENCT` accepts exactly the words that are not bad, and its bits are those of the used slots (R113, R115). -/
theorem enctBits_eq_some_iff_wordBits {nsym : Byte} {slots : BitVec 64} {bits : List Bool} :
    enctBits nsym slots = some bits ↔ ¬ BadWord nsym slots ∧ bits = wordBits nsym.toNat slots := by
  have hspell {w : List Bool} (hn : nsym.toNat ≤ 32) :
      (∃ x, symbolsOf (usedSlots nsym.toNat slots) = some x ∧ expandWord x = w) ↔
        hasBadSlot nsym.toNat slots = false ∧ wordBits nsym.toNat slots = w := by
    rw [← Option.map_eq_some_iff, expand_usedSlots hn]
    cases hasBadSlot nsym.toNat slots <;> simp
  rw [enctBits_eq_some_iff]
  constructor
  · rintro ⟨hpos, hn, x, hx, hlen, rfl⟩
    obtain ⟨hgood, hbits⟩ := (hspell hn).mp ⟨x, hx, rfl⟩
    rw [← hbits] at hlen ⊢
    exact ⟨by simp only [BadWord, hgood, Bool.false_eq_true, false_or]; omega, rfl⟩
  · rintro ⟨hgood, rfl⟩
    simp only [BadWord, not_or, Bool.not_eq_true, Nat.not_lt] at hgood
    obtain ⟨hpos, hn, hslots, hlen⟩ := hgood
    obtain ⟨x, hx, hbits⟩ := (hspell hn).mpr ⟨hslots, rfl⟩
    exact ⟨Nat.one_le_iff_ne_zero.mpr hpos, hn, x, hx, by rwa [hbits], hbits.symm⟩

theorem enctBits_of_badWord {nsym : Byte} {slots : BitVec 64} (h : BadWord nsym slots) : enctBits nsym slots = none :=
  Option.eq_none_iff_forall_ne_some.mpr fun _ hb => (enctBits_eq_some_iff_wordBits.mp hb).1 h

theorem encbBits_of_bad_length {len : Byte} (h : len.toNat = 0 ∨ 32 < len.toNat) (code : BitVec 32) :
    encbBits len code = none := by
  refine Option.eq_none_iff_forall_ne_some.mpr fun bits hb => ?_
  obtain ⟨hpos, hle, -⟩ := encbBits_eq_some_iff.mp hb
  omega

/-- Either code word is at most 32 bits long (R113, R116). -/
theorem enctBits_length_le {nsym : Byte} {slots : BitVec 64} {bits : List Bool} (h : enctBits nsym slots = some bits) :
    bits.length ≤ 32 := by
  obtain ⟨-, -, w, -, hlen, rfl⟩ := enctBits_eq_some_iff.mp h
  exact hlen

theorem encbBits_length_le {len : Byte} {code : BitVec 32} {bits : List Bool} (h : encbBits len code = some bits) :
    bits.length ≤ 32 := by
  obtain ⟨-, hlen, rfl⟩ := encbBits_eq_some_iff.mp h
  rwa [codeBits_length]

/-- Slots that hold a code's bits as the symbols 0 and 1 spell the code word of `ENCB` (R116). -/
theorem wordBits_eq_codeBits {n : Nat} {code : BitVec 32} {slots : BitVec 64}
    (h : ∀ k < n, slots.getLsbD (63 - 2 * k) = false ∧ slots.getLsbD (62 - 2 * k) = code.getLsbD (n - 1 - k)) :
    wordBits n slots = codeBits n code := by
  have hslot : ∀ k ∈ List.range n, slotBits slots k = [code.getLsbD (n - 1 - k)] := by
    intro k hk
    obtain ⟨hhigh, hlow⟩ := h k (List.mem_range.mp hk)
    rw [slotBits, hhigh, hlow]
    cases code.getLsbD (n - 1 - k) <;> rfl
  rw [wordBits, List.flatMap_congr hslot, codeBits, List.map_eq_flatMap]

theorem hasBadSlot_eq_false {n : Nat} {slots : BitVec 64} (h : ∀ k < n, slots.getLsbD (63 - 2 * k) = false) :
    hasBadSlot n slots = false := by
  rw [hasBadSlot, List.any_eq_false]
  intro k hk
  rw [h k (List.mem_range.mp hk), Bool.false_and]
  exact Bool.false_ne_true

end Sys2Proof.Machine
end

section
/-! The formats of the encode commands (R66, R67). -/

namespace Sys2Proof

open Sys2Proof.Machine Sys2Proof.Claims

theorem formatL_of_decodeFields {op : Byte} {mk : Byte → BitVec 32 → Instr}
    (h : ∀ pl, decodeFields op pl = decodeL op pl mk) : FormatL op mk :=
  fun pl => decodes_or_raises (h pl) reservedClear_eq_true

theorem formatT_of_decodeFields {op : Byte} {mk : Byte → BitVec 64 → Instr}
    (h : ∀ pl, decodeFields op pl = decodeT pl mk) : FormatT op mk :=
  fun pl => (decode_append op pl).trans (h pl)

end Sys2Proof
end

section
/-! The encoder commands (R110 to R118): what each executes to, and the bounds of its stream. -/

namespace Sys2Proof.Machine

open Sys2Proof.Claims

/-! The commands, outcome by outcome (R114 to R116). -/

theorem exec_setrep_of_ne_zero {r : Byte} (h : r ≠ 0) (s : State) :
    exec (.setrep r) s = .next (respond 0 (setRepeat r s)) := by
  have hr : r.toNat ≠ 0 := fun h0 => h (BitVec.eq_of_toNat_eq h0)
  simp only [exec, execSetrep, if_neg hr]

theorem exec_enct (nsym : Byte) (slots : BitVec 64) (s : State) :
    exec (.enct nsym slots) s = .next (encodeWord (enctBits nsym slots) s) := rfl

theorem exec_encb (len : Byte) (code : BitVec 32) (s : State) :
    exec (.encb len code) s = .next (encodeWord (encbBits len code) s) := rfl

/-- A legal code word: the response is the length of the stream, and the stream is that of its bits (R112). -/
theorem encodeWord_streams (bits : List Bool) (s : State) :
    ∃ tx, encodeWord (some bits) s =
        { s with rsp := okRsp (BitVec.ofNat 72 (s.repeatCnt.toNat * (2 * bits.length + 2))), tx := tx } ∧
      StreamOf tx bits s.curp s.repeatCnt.toNat := by
  refine ⟨beats (encodeBits bits s.curp s.repeatCnt.toNat), ?_, streamOf_beats_encodeBits _ _ _⟩
  rw [encodeWord_some, respondTx, encodeBits_length]

/-- An encode command reads `CURP` and `REPEAT` and no other register, and writes none (R118). -/
theorem encodeWord_pure (bits : Option (List Bool)) {s u : State} (hcurp : s.curp = u.curp)
    (hrep : s.repeatCnt = u.repeatCnt) :
    ∃ rsp tx, encodeWord bits s = { s with rsp := rsp, tx := tx } ∧ encodeWord bits u = { u with rsp := rsp, tx := tx } := by
  cases bits with
  | none => exact ⟨_, _, rfl, rfl⟩
  | some bs =>
    have hseq : encodeBits bs u.curp u.repeatCnt.toNat = encodeBits bs s.curp s.repeatCnt.toNat := by rw [hcurp, hrep]
    exact ⟨_, _, rfl, by rw [encodeWord_some, hseq]; rfl⟩

/-! The bounds of a stream (R110, R113, R117). -/

/-- A command leaves an idle stream, or that of a code word of at most 32 bits under `CURP`, `REPEAT` times. -/
theorem exec_tx {i : Instr} {s t : State} (h : exec i s = .next t) :
    t.tx = [] ∨ ∃ bits : List Bool, bits.length ≤ 32 ∧ t.tx = beats (encodeBits bits s.curp s.repeatCnt.toNat) := by
  cases i with
  | enct nsym slots =>
    cases h
    cases hb : enctBits nsym slots with
    | none => exact .inl rfl
    | some bits => exact .inr ⟨bits, enctBits_length_le hb, rfl⟩
  | encb len code =>
    cases h
    cases hb : encbBits len code with
    | none => exact .inl rfl
    | some bits => exact .inr ⟨bits, encbBits_length_le hb, rfl⟩
  | nop | getcur | capclr | avail | rstavail | getval | getlen | getdly | getproto | getcfg =>
    cases h
    exact .inl rfl
  | protoat | setproto | setprotof | setpulse | setrep | settol | cappush | decode | getraw =>
    cases h
    left
    repeat' split
    all_goals rfl

theorem mem_emitPair {hl : HighLow} {p : Protocol} {d : Duration} :
    d ∈ emitPair hl p ↔ d = scale hl.high p.pulseLength ∨ d = scale hl.low p.pulseLength := by
  unfold emitPair
  split <;> simp [or_comm]

/-- Every entry of a pair is a factor of it times the pulse length, so it is in 1 .. 255 * 65535 (R110, R117). -/
theorem emitPair_bounds {hl : HighLow} {p : Protocol} {d : Duration} (hpulse : 1 ≤ p.pulseLength.toNat)
    (hhigh : 1 ≤ hl.high.toNat) (hlow : 1 ≤ hl.low.toNat) (hd : d ∈ emitPair hl p) :
    1 ≤ d.toNat ∧ d.toNat ≤ 255 * 65535 := by
  have hscale {f : Byte} (hf : 1 ≤ f.toNat) :
      1 ≤ (scale f p.pulseLength).toNat ∧ (scale f p.pulseLength).toNat ≤ 255 * 65535 := by
    rw [scale_toNat]
    exact ⟨Nat.mul_pos hf hpulse, Nat.mul_le_mul (by omega) (by omega)⟩
  obtain rfl | rfl := mem_emitPair.mp hd
  · exact hscale hhigh
  · exact hscale hlow

/-- Every entry of a stream belongs to the pair of a bit or to the sync pair (R112). -/
theorem mem_encodeBits {bits : List Bool} {p : Protocol} {r : Nat} {d : Duration} (h : d ∈ encodeBits bits p r) :
    (∃ bit, d ∈ emitPair (hlOf p bit) p) ∨ d ∈ emitPair p.syncFactor p := by
  obtain ⟨one, hone, hd⟩ := List.mem_flatten.mp h
  obtain rfl := List.eq_of_mem_replicate hone
  refine (List.mem_append.mp hd).imp_left fun hd => ?_
  obtain ⟨bit, -, hd⟩ := List.mem_flatMap.mp hd
  exact ⟨bit, hd⟩

theorem encodeBits_bounds {bits : List Bool} {p : Protocol} {r : Nat} {d : Duration} (hp : AllPositive p)
    (h : d ∈ encodeBits bits p r) : 1 ≤ d.toNat ∧ d.toNat ≤ 255 * 65535 := by
  obtain ⟨hpulse, hsh, hsl, hzh, hzl, hoh, hol⟩ := hp
  obtain ⟨bit, hd⟩ | hd := mem_encodeBits h
  · cases bit with
    | false => exact emitPair_bounds hpulse hzh hzl hd
    | true => exact emitPair_bounds hpulse hoh hol hd
  · exact emitPair_bounds hpulse hsh hsl hd

/-! The statements. -/

/-- Settles O20: a positive repeat count is written into `REPEAT`, and 0 raises. -/
theorem setrepSetsRepeatCount : Obligations.SetrepSetsRepeatCount := by
  unfold Obligations.SetrepSetsRepeatCount
  exact ⟨formatB_of_decodeFields fun _ => rfl, fun s r h => exec_setrep_of_ne_zero h s, fun _ => rfl⟩

/-- Settles O21: the words `ENCT` accepts are those that are not bad, and it streams their bits. -/
theorem enctStreamsCodeWord : Obligations.EnctStreamsCodeWord := by
  unfold Obligations.EnctStreamsCodeWord
  refine ⟨formatT_of_decodeFields fun _ => rfl, fun s nsym slots hgood => ?_, fun s nsym slots hbad => ?_⟩
  · obtain ⟨tx, hword, hstream⟩ := encodeWord_streams (wordBits nsym.toNat slots) s
    refine ⟨tx, ?_, hstream⟩
    rw [exec_enct, enctBits_eq_some_iff_wordBits.mpr ⟨hgood, rfl⟩, hword]
  · rw [exec_enct, enctBits_of_badWord hbad]
    rfl

/-- Settles O22: the lengths `ENCB` accepts are 1 to 32, and it streams that many low bits of the code. -/
theorem encbStreamsCode : Obligations.EncbStreamsCode := by
  unfold Obligations.EncbStreamsCode
  refine ⟨formatL_of_decodeFields fun _ => rfl, fun s len code hpos hle => ?_, fun s len code hbad => ?_⟩
  · obtain ⟨tx, hword, hstream⟩ := encodeWord_streams (codeBits len.toNat code) s
    refine ⟨tx, codeBits len.toNat code, ?_, codeBits_length _ _, fun i hi => ?_, hstream⟩
    · rw [exec_encb, encbBits_eq_some_iff.mpr ⟨hpos, hle, rfl⟩, hword, codeBits_length]
    · rw [List.getElem?_eq_getElem (by rwa [codeBits_length]), codeBits_getElem]
  · rw [exec_encb, encbBits_of_bad_length hbad]
    rfl

/-- Settles O23: both commands encode the same bits. -/
theorem enctWithoutFloatIsEncb : Obligations.EnctWithoutFloatIsEncb := by
  unfold Obligations.EnctWithoutFloatIsEncb
  intro s len code slots hpos hle hslots
  have hword : wordBits len.toNat slots = codeBits len.toNat code := wordBits_eq_codeBits hslots
  have hgood : ¬ BadWord len slots := by
    simp only [BadWord, hword, codeBits_length, hasBadSlot_eq_false fun k hk => (hslots k hk).1, Bool.false_eq_true,
      false_or]
    omega
  rw [exec_enct, exec_encb, enctBits_eq_some_iff_wordBits.mpr ⟨hgood, rfl⟩,
    encbBits_eq_some_iff.mpr ⟨hpos, hle, rfl⟩, hword]

/-- Settles O24: both commands end in `encodeWord` of bits that their operand alone decides. -/
theorem encodeCommandsArePure : Obligations.EncodeCommandsArePure := by
  unfold Obligations.EncodeCommandsArePure
  intro i hi s u hcurp hrep
  obtain ⟨nsym, slots, rfl⟩ | ⟨len, code, rfl⟩ := hi
  · simpa only [exec_enct, Host.Outcome.next.injEq] using encodeWord_pure _ hcurp hrep
  · simpa only [exec_encb, Host.Outcome.next.injEq] using encodeWord_pure _ hcurp hrep

/-- Settles O25: a stream that is not idle is at most 255 transmissions of at most 66 entries, each bounded. -/
theorem streamsAreBounded : Obligations.StreamsAreBounded := by
  unfold Obligations.StreamsAreBounded
  intro i s t hs h
  obtain htx | ⟨bits, hbits, htx⟩ := exec_tx h
  · simp [htx]
  · rw [htx]
    constructor
    · rw [beats_length, encodeBits_length]
      exact Nat.mul_le_mul (show s.repeatCnt.toNat ≤ 255 by omega) (show _ ≤ 66 by omega)
    · intro b hb
      have hmem : b.data ∈ encodeBits bits s.curp s.repeatCnt.toNat := by
        simpa only [beats_data] using List.mem_map_of_mem (f := TxBeat.data) hb
      exact encodeBits_bounds (validProtocol_iff_allPositive.mp hs.current) hmem

end Sys2Proof.Machine
end

section
/-! One transmission read back by the protocol that sent it (R147): the sync pair gives the pulse length, each data pair its
bit, and the entry loop the bits as a number. -/

namespace Sys2Proof.Machine

open Sys2Proof.Claims

/-! The tolerance test in the terms of the statements (R138, R139). -/

theorem within_iff_near {obs exp tol : Nat} : within obs exp tol = true ↔ Near obs exp tol := by
  rw [within_iff, Near, Nat.add_mul]

/-- The model's test of a pair is rule R139's, whatever the polarity. -/
theorem matchPair_iff_pairMatches {a b : Nat} {hl : HighLow} {p : Protocol} {delay tol : Nat} :
    matchPair a b hl p delay tol = true ↔ PairMatches a b hl p delay tol := by
  unfold matchPair PairMatches entriesOf
  split <;> simp only [Bool.and_eq_true, within_iff_near, Nat.mul_comm delay]

/-- A pair at exactly the expected durations passes. -/
theorem pairMatches_self (hl : HighLow) (p : Protocol) (delay tol : Nat) :
    PairMatches (entriesOf hl p delay).1 (entriesOf hl p delay).2 hl p delay tol :=
  ⟨within_iff_near.mp (within_self _ _), within_iff_near.mp (within_self _ _)⟩

/-- The pair sent for a bit reads as that bit, if the pair of a 1 is told apart from that of a 0 (R140, R147). -/
theorem pairBit_entriesOf {p : Protocol} {delay tol : Nat} (h : ToldApart p delay tol) (bit : Bool) :
    pairBit p delay tol (entriesOf (hlOf p bit) p delay).1 (entriesOf (hlOf p bit) p delay).2 = some bit.toNat := by
  rw [pairBit_eq_some_iff]
  cases bit with
  | false => exact .inl ⟨matchPair_iff_pairMatches.mpr (pairMatches_self _ _ _ _), rfl⟩
  | true =>
    exact .inr ⟨Bool.eq_false_iff.mpr (mt matchPair_iff_pairMatches.mp h),
      matchPair_iff_pairMatches.mpr (pairMatches_self _ _ _ _), rfl⟩

/-! The entry loop over the data entries (R135, R140). -/

/-- Over the data entries of a transmission the loop shifts in the bits that were sent. -/
theorem accumulate_dataEntries {p : Protocol} {tol : Nat} (h : ToldApart p p.pulseLength.toNat tol) (bits : List Bool)
    (value n : Nat) :
    accumulate p p.pulseLength.toNat tol ((bits.flatMap fun bit => emitPair (hlOf p bit) p).map BitVec.toNat) value n =
      some (shiftIn value (bits.map Bool.toNat), n + bits.length) := by
  induction bits generalizing value n with
  | nil => rfl
  | cons bit bits ih =>
    rw [List.flatMap_cons, List.map_append, emitPair_map_toNat, List.cons_append, List.singleton_append, accumulate,
      pairBit_entriesOf h]
    simp only [ih, List.map_cons, shiftIn, List.foldl_cons, List.length_cons, Nat.add_comm, Nat.add_left_comm]

/-- `binary` from an accumulator: the number that stands when the bits `bits` are read after the number `v`. -/
def readOn (v : Nat) (bits : List Bool) : Nat := bits.foldl (fun v b => 2 * v + b.toNat) v

@[simp] theorem readOn_nil (v : Nat) : readOn v [] = v := rfl

@[simp] theorem readOn_cons (v : Nat) (b : Bool) (bits : List Bool) :
    readOn v (b :: bits) = readOn (2 * v + b.toNat) bits := rfl

theorem binary_eq_readOn (bits : List Bool) : binary bits = readOn 0 bits := rfl

/-- While the bits fit in 32 the accumulator's wrap never takes effect (R140). -/
theorem shiftIn_eq_readOn {bits : List Bool} {v k : Nat} (hv : v < 2 ^ k) (hl : k + bits.length ≤ 32) :
    shiftIn v (bits.map Bool.toNat) = readOn v bits := by
  induction bits generalizing v k with
  | nil => rfl
  | cons b bits ih =>
    rw [List.length_cons] at hl
    have hb : b.toNat < 2 := b.toNat_lt
    have hnext : 2 * v + b.toNat < 2 ^ (k + 1) := by rw [pow_succ]; omega
    have hfits : 2 * v + b.toNat < 2 ^ 32 :=
      Nat.lt_of_lt_of_le hnext (Nat.pow_le_pow_right (by decide) (by omega))
    have hrest := ih hnext (by omega)
    rw [readOn_cons, ← hrest, shiftIn, List.map_cons, List.foldl_cons, Nat.mod_eq_of_lt hfits, shiftIn]

theorem shiftIn_eq_binary {bits : List Bool} (hl : bits.length ≤ 32) :
    shiftIn 0 (bits.map Bool.toNat) = binary bits := by
  rw [binary_eq_readOn, shiftIn_eq_readOn (k := 0) (by decide) (by omega)]

/-! The delay (R136, R137). -/

/-- The sync pair of a transmission gives back the pulse length exactly, in either polarity. -/
theorem inferredDelay_oneTransmission {p : Protocol} (hp : AllPositive p) (bits : List Bool) :
    inferredDelay p ((oneTransmission bits p).map BitVec.toNat) (2 * bits.length + 2) = p.pulseLength.toNat := by
  obtain ⟨-, hhigh, hlow, -⟩ := hp
  have hsync (c : Nat) : ((oneTransmission bits p).map BitVec.toNat)[2 * bits.length + c]? =
      ((emitPair p.syncFactor p).map BitVec.toNat)[c]? := by
    rw [List.getElem?_map, oneTransmission_sync, List.getElem?_map]
  have hfirst := hsync 0
  have hsecond := hsync 1
  rw [emitPair_map_toNat] at hfirst hsecond
  have hpair : syncEntries p ((oneTransmission bits p).map BitVec.toNat) (2 * bits.length + 2) =
      (p.syncFactor.high.toNat * p.pulseLength.toNat, p.syncFactor.low.toNat * p.pulseLength.toNat) := by
    simp only [syncEntries, List.getD_eq_getElem?_getD, Nat.add_sub_cancel,
      show 2 * bits.length + 2 - 1 = 2 * bits.length + 1 by omega, hsecond]
    rw [Nat.add_zero] at hfirst
    rw [hfirst]
    unfold entriesOf
    split <;> rfl
  rw [inferredDelay, hpair, inferDelay]
  split
  · exact Nat.mul_div_cancel_left _ hlow
  · exact Nat.mul_div_cancel_left _ hhigh

/-- Settles O35: the delay is the pulse length, at which every data pair reads as the bit it was sent for. -/
theorem matcherReadsBackTransmission : Obligations.MatcherReadsBackTransmission := by
  unfold Obligations.MatcherReadsBackTransmission
  intro p bits tol hp hmin hmax happart
  have hdelay := inferredDelay_oneTransmission hp bits
  have hdata : ((oneTransmission bits p).map BitVec.toNat).take (2 * bits.length + 2 - 2) =
      (bits.flatMap fun bit => emitPair (hlOf p bit) p).map BitVec.toNat := by
    rw [← List.map_take, oneTransmission, Nat.add_sub_cancel, ← dataEntries_length bits p, List.take_left]
  rw [tryProtocol_eq_some_iff, hdelay, hdata, accumulate_dataEntries happart, shiftIn_eq_binary hmax, Nat.zero_add]
  exact ⟨by omega, by omega, by omega, Nat.one_le_iff_ne_zero.mp hp.1, rfl, rfl⟩

end Sys2Proof.Machine
end

section
/-! From `ENCB` to `DECODE` (R143, R147): the capture that holds one transmission, and what is published from it. -/

namespace Sys2Proof.Machine

open Sys2Proof.Claims

/-- The word of `len + 1` bits is bit `len` of the code, then the word of `len` bits (R116). -/
theorem codeBits_succ (len : Nat) (code : BitVec 32) : codeBits (len + 1) code = code.getLsbD len :: codeBits len code := by
  rw [codeBits, List.range_succ_eq_map, List.map_cons, List.map_map, Nat.add_sub_cancel, Nat.sub_zero, codeBits]
  exact congrArg _ (List.map_congr_left fun i _ => congrArg code.getLsbD (by omega))

/-- `ENCB` bits read after the number `v`: `v` stands above the low `len` bits of the code. -/
theorem readOn_codeBits (len : Nat) (code : BitVec 32) (v : Nat) :
    readOn v (codeBits len code) = 2 ^ len * v + code.toNat % 2 ^ len := by
  induction len generalizing v with
  | zero => simp [codeBits, Nat.mod_one]
  | succ len ih =>
    rw [codeBits_succ, readOn_cons, ih, Nat.mod_pow_succ, ← Nat.toNat_testBit, BitVec.testBit_toNat]
    ring

/-- The number that the bits of `ENCB` spell is the low `len` bits of the code (R116, R147). -/
theorem binary_codeBits (len : Nat) (code : BitVec 32) : binary (codeBits len code) = code.toNat % 2 ^ len := by
  rw [binary_eq_readOn, readOn_codeBits, Nat.mul_zero, Nat.zero_add]

/-- `DECODE` finds the record of lowest id whose attempt matches (R133, R134). -/
theorem decodeCapture_of_first {s : State} {k : Nat} {p : Protocol} {m : Decoded} (hp : s.proto[k]? = some p)
    (hm : attempt s p = some m) (hfirst : ∀ j q, j < k → s.proto[j]? = some q → attempt s q = none) :
    decodeCapture s = some (k + 1, m) := by
  obtain ⟨hk, rfl⟩ := List.getElem?_eq_some_iff.mp hp
  refine firstMatch_eq_some_iff.mpr ⟨k, hk, Nat.add_comm k 1, hm, fun j hj => ?_⟩
  exact hfirst j _ hj (List.getElem?_eq_getElem (Nat.lt_trans hj hk))

/-- The rotation of a capture is the one rule R143 describes. -/
theorem rotationOf_rotate {s : State} (hmin : 2 ≤ s.capcnt.toNat) (hmax : s.capcnt.toNat ≤ 67) :
    RotationOf (rotate (captured s) s.capcnt.toNat) s := by
  have hentry {k : Nat} (hk : k < s.capcnt.toNat) : some ((captured s).getD k 0) = s.cap[k]? := by
    rw [← captured_getElem? s k hk, List.getD_eq_getElem?_getD,
      List.getElem?_eq_getElem (by rwa [captured_length hmax]), Option.getD_some]
  exact {
    sync0 := by
      rw [← hentry (by omega), Vector.getElem?_eq_getElem (by decide), rotate_getElem, if_neg (by omega), if_pos rfl]
    sync1 := by
      rw [← hentry (by omega), Vector.getElem?_eq_getElem (by decide), rotate_getElem, if_neg (by omega),
        if_neg (by decide), if_pos rfl]
    data := fun k hk => by
      rw [← hentry (by omega), Vector.getElem?_eq_getElem (by omega), rotate_getElem, if_neg (by omega),
        if_neg (by omega), if_neg (by omega), Nat.add_sub_cancel]
    tail := fun j hj => by
      rw [Fin.getElem_fin, rotate_getElem, if_pos hj] }

/-- Settles O36: the stream is one transmission of the code's bits, and the attempt of its protocol is the first to match. -/
theorem encodedTransmissionDecodes : Obligations.EncodedTransmissionDecodes := by
  unfold Obligations.EncodedTransmissionDecodes
  intro s t u len code k ht hrep hpos hmin hmax hovf hcnt hcap hp hfirst happart
  have hsent : t.tx.map TxBeat.data = oneTransmission (codeBits len.toNat code) s.curp := by
    rw [exec_encb, encbBits_eq_some_iff.mpr ⟨by omega, hmax, rfl⟩] at ht
    cases ht
    rw [encodeWord_some, respondTx_tx, beats_data, hrep]
    exact encodeBits_one _ _
  have hcaptured : captured u = t.tx.map TxBeat.data := by rw [captured, hcnt, hcap]
  have hm : attempt u s.curp =
      some { value := code.toNat % 2 ^ len.toNat, bits := len.toNat, delay := s.curp.pulseLength.toNat } := by
    have hread := matcherReadsBackTransmission s.curp (codeBits len.toNat code) u.tol.toNat hpos
      (by rwa [codeBits_length]) (by rwa [codeBits_length]) happart
    rw [binary_codeBits, codeBits_length, ← hsent, ← hcaptured, ← hcnt] at hread
    exact hread
  obtain ⟨hsync0, hsync1, hdata, -⟩ := rotationOf_rotate (s := u) (by omega) (by omega)
  have hraw {j : Nat} (hj : j < u.capcnt.toNat) : u.cap[j]? = (t.tx[j]?).map TxBeat.data := by
    rw [← captured_getElem? u j hj, hcaptured, List.getElem?_map]
  refine ⟨rotate (captured u) u.capcnt.toNat,
    (execDecode_of_some hovf (decodeCapture_of_first hp hm hfirst)).trans ?_, fun j hj => ?_, fun c hc => ?_⟩
  · rw [respond, publish, BitVec.ofNat_toNat, BitVec.ofNat_toNat, BitVec.setWidth_eq]
  · rw [hdata j (by omega), hraw (by omega)]
  · rw [← hraw (by omega)]
    obtain rfl | rfl : c = 0 ∨ c = 1 := by omega
    · rw [hsync0, hcnt]; rfl
    · rw [hsync1, hcnt]; rfl

end Sys2Proof.Machine
end

section
/-! The format of `CAPPUSH` (R65). -/

namespace Sys2Proof

open Sys2Proof.Machine Sys2Proof.Claims

theorem formatW_of_decodeFields {op : Byte} {mk : BitVec 32 → Instr}
    (h : ∀ pl, decodeFields op pl = decodeW op pl mk) : FormatW op mk :=
  fun pl => decodes_or_raises (h pl) reservedClear_eq_true

end Sys2Proof
end

section
/-! The commands that set up the decoder (R130 to R132): what each executes to, outcome by outcome, and its format. -/

namespace Sys2Proof.Machine

theorem exec_settol_of_le {t : Byte} (h : t.toNat ≤ 99) (s : State) :
    exec (.settol t) s = .next (respond 0 (setTol t s)) := by
  simp only [exec, execSettol, if_neg (Nat.not_lt.mpr h)]

theorem exec_settol_of_gt {t : Byte} (h : 99 < t.toNat) (s : State) :
    exec (.settol t) s = .next (raiseError .invalidArgument s) := by
  simp only [exec, execSettol, if_pos h]

/-- The count a push responds does not wrap (R132). -/
theorem capcnt_succ_setWidth {s : State} (h : s.capcnt.toNat < 67) :
    (s.capcnt + 1).setWidth 72 = BitVec.ofNat 72 (s.capcnt.toNat + 1) := by
  rw [← capcnt_succ_toNat h, BitVec.ofNat_toNat]

/-- Settles O26: a tolerance of at most 99 is written into `TOL`, and any other raises. -/
theorem settolSetsTolerance : Obligations.SettolSetsTolerance := by
  unfold Obligations.SettolSetsTolerance
  exact ⟨formatB_of_decodeFields fun _ => rfl, fun s _ h => exec_settol_of_le h s, fun s _ h => exec_settol_of_gt h s⟩

/-- Settles O27: `CAPCLR` clears the count and the overflow and responds, and its payload is all reserved. -/
theorem capclrEmptiesBuffer : Obligations.CapclrEmptiesBuffer := by
  unfold Obligations.CapclrEmptiesBuffer
  exact ⟨formatZ_of_decodeFields fun _ => rfl, fun _ => rfl⟩

/-- Settles O28: a push writes the entry at the count, and a full buffer is left as it is but for the overflow. -/
theorem cappushAppendsEntry : Obligations.CappushAppendsEntry := by
  unfold Obligations.CappushAppendsEntry
  refine ⟨formatW_of_decodeFields fun _ => rfl, fun s d h => ?room, fun s d h => execCappush_of_full d h⟩
  case room =>
    refine ⟨(pushCapture d s).cap, ?_, fun j => ?_⟩
    · rw [← capcnt_succ_setWidth h]
      exact execCappush_of_room d (Nat.ne_of_lt h)
    · rw [Fin.getElem_fin, Fin.getElem_fin, pushCapture_getElem d s j.val j.isLt]
      exact if_congr eq_comm rfl rfl

end Sys2Proof.Machine
end

section
/-! The tolerance band (R138) in percent of the expected duration. -/

namespace Sys2Proof.Machine

open Sys2Proof.Claims

/-- For a positive expectation of `100 * x`, an observed `q` percent of it passes exactly from `100 - tol` to `100 + tol`
percent. -/
theorem within_percent_iff {x q tol : Nat} (hx : 0 < x) :
    within (x * q) (100 * x) tol = true ↔ q ≤ 100 + tol ∧ 100 ≤ q + tol := by
  have hupper : x * q ≤ x * (100 + tol) ↔ q ≤ 100 + tol := Nat.mul_le_mul_left_iff hx
  have hlower : x * 100 ≤ x * (q + tol) ↔ 100 ≤ q + tol := Nat.mul_le_mul_left_iff hx
  rw [within_iff_near, Near, ← hupper, ← hlower, Nat.mul_add, Nat.mul_add, Nat.mul_left_comm tol, Nat.mul_comm tol]
  omega

/-- Inside the band nothing is asked of the expectation: one of 0 meets an observed 0. -/
theorem within_percent {x q tol : Nat} (hupper : q ≤ 100 + tol) (hlower : 100 ≤ q + tol) :
    within (x * q) (100 * x) tol = true := by
  rcases Nat.eq_zero_or_pos x with rfl | hx
  · rw [Nat.zero_mul]
    exact within_self 0 tol
  · exact (within_percent_iff hx).mpr ⟨hupper, hlower⟩

theorem within_percent_eq_false {x q tol : Nat} (hx : 0 < x) (h : 100 + tol < q ∨ q + tol < 100) :
    within (x * q) (100 * x) tol = false := by
  rw [Bool.eq_false_iff, ne_eq, within_percent_iff hx]
  omega

theorem within_zero_tol_iff {obs exp : Nat} : within obs exp 0 = true ↔ obs = exp := by
  rw [within_iff_near, Near, Nat.zero_mul]
  omega

/-- Below 100 percent of tolerance the lower bound of the band is positive, so silence is no pulse. -/
theorem within_zero_obs {exp tol : Nat} (hexp : 1 ≤ exp) (htol : tol ≤ 99) : within 0 exp tol = false := by
  have hband : tol * exp ≤ 99 * exp := Nat.mul_le_mul_right exp htol
  rw [Bool.eq_false_iff, ne_eq, within_iff_near, Near]
  omega

/-- Settles O31: the test is the two bounds of rule R138, and in percent each bound is compared with `100 ± tol`. -/
theorem toleranceBandIsExact : Obligations.ToleranceBandIsExact := by
  unfold Obligations.ToleranceBandIsExact
  exact ⟨fun _ _ _ => within_iff_near,
    fun _ _ => within_percent (by omega) (by omega),
    fun _ _ hx => within_percent_eq_false hx (by omega),
    fun _ _ htol => within_percent (by omega) (by omega),
    fun _ _ hx htol => within_percent_eq_false hx (by omega),
    fun _ _ => within_zero_tol_iff,
    fun _ _ => within_zero_obs⟩

end Sys2Proof.Machine
end

section
/-! One protocol's attempt, exactly (R135 to R142): the bits of the value it gives are those the pairs of the capture read
as, the first pair the most significant. -/

namespace Sys2Proof.Machine

open Sys2Proof.Claims

/-- What a pair must satisfy to read as a bit, in the terms of the statements (R140). -/
theorem pairBit_eq_toNat_iff {p : Protocol} {delay tol a b : Nat} {bit : Bool} :
    pairBit p delay tol a b = some bit.toNat ↔
      if bit then PairMatches a b p.one p delay tol ∧ ¬ PairMatches a b p.zero p delay tol
      else PairMatches a b p.zero p delay tol := by
  rw [pairBit_eq_some_iff, Bool.eq_false_iff, ne_eq, matchPair_iff_pairMatches, matchPair_iff_pairMatches]
  cases bit with
  | false => simp
  | true => simp [and_comm]

/-- At most 32 bits shifted in are the binary digits of the result, the first bit the most significant (R140). -/
theorem shiftIn_zero_eq_iff {bs : List Nat} {v : Nat} (hl : bs.length ≤ 32) (hb : ∀ x ∈ bs, x < 2) :
    shiftIn 0 bs = v ↔
      v < 2 ^ bs.length ∧ ∀ i (h : i < bs.length), v.testBit (bs.length - 1 - i) = decide (bs[i] = 1) := by
  obtain ⟨hlt, hdigit, -⟩ := shiftIn_bits bs 0 0 (by decide) (by omega) hb
  rw [Nat.zero_add] at hlt
  constructor
  · rintro rfl
    exact ⟨hlt, hdigit⟩
  · rintro ⟨hv, hvdigit⟩
    refine Nat.eq_of_testBit_eq fun j => ?_
    by_cases hj : j < bs.length
    · have hsame := (hdigit (bs.length - 1 - j) (by omega)).trans (hvdigit (bs.length - 1 - j) (by omega)).symm
      rwa [show bs.length - 1 - (bs.length - 1 - j) = j by omega] at hsame
    · have hpow : 2 ^ bs.length ≤ 2 ^ j := Nat.pow_le_pow_right (by decide) (Nat.le_of_not_lt hj)
      rw [Nat.testBit_lt_two_pow (Nat.lt_of_lt_of_le hlt hpow), Nat.testBit_lt_two_pow (Nat.lt_of_lt_of_le hv hpow)]

/-- A digit is the number of its own truth value. -/
theorem toNat_decide_eq_one {x : Nat} (h : x < 2) : (decide (x = 1)).toNat = x := by
  obtain rfl | rfl : x = 0 ∨ x = 1 := by omega
  · rfl
  · rfl

/-- Over `m` pairs, at most 32, the loop from 0 counts `m` bits and gives the number whose digits the pairs read as. -/
theorem accumulate_zero_eq_some_iff {p : Protocol} {delay tol m v b : Nat} {l : List Nat} (hl : l.length = 2 * m)
    (hm : m ≤ 32) :
    accumulate p delay tol l 0 0 = some (v, b) ↔
      b = m ∧ v < 2 ^ m ∧
      ∀ i < m, pairBit p delay tol (l.getD (2 * i) 0) (l.getD (2 * i + 1) 0) =
        some (v.testBit (m - 1 - i)).toNat := by
  rw [accumulate_eq_some_iff hl]
  constructor
  · rintro ⟨bs, rfl, hpair, hr⟩
    obtain ⟨hv, rfl⟩ := Prod.mk.inj hr
    have hbit : ∀ x ∈ bs, x < 2 := by
      intro x hx
      obtain ⟨i, hi, rfl⟩ := List.mem_iff_getElem.mp hx
      exact pairBit_lt_two (hpair i hi)
    obtain ⟨hlt, hdigit⟩ := (shiftIn_zero_eq_iff hm hbit).mp hv.symm
    refine ⟨Nat.zero_add _, hlt, fun i hi => ?_⟩
    rw [hpair i hi, hdigit i hi, toNat_decide_eq_one (pairBit_lt_two (hpair i hi))]
  · rintro ⟨rfl, hlt, hpair⟩
    have hbit : ∀ x ∈ (List.range b).map (fun i => (v.testBit (b - 1 - i)).toNat), x < 2 := by
      intro x hx
      obtain ⟨i, -, rfl⟩ := List.mem_map.mp hx
      exact Bool.toNat_lt _
    refine ⟨(List.range b).map fun i => (v.testBit (b - 1 - i)).toNat, by simp, fun i hi => ?_, ?_⟩
    · simpa using hpair i (by simpa using hi)
    · rw [Nat.zero_add, (shiftIn_zero_eq_iff (v := v) (by simpa using hm) hbit).mpr (by simpa using hlt)]

/-- The delay of the model's attempt is that of the statements (R136, R137). -/
theorem inferredDelay_eq_delayOf (p : Protocol) (cap : List Nat) (n : Nat) :
    inferredDelay p cap n = delayOf p cap n := rfl

/-- The data entries are the capture's own (R135). -/
theorem getD_take_of_lt {l : List Nat} {k n : Nat} (h : k < n) : (l.take n).getD k 0 = l.getD k 0 := by
  rw [List.getD_eq_getElem?_getD, List.getD_eq_getElem?_getD, List.getElem?_take_of_lt h]

/-- The entry loop over a capture of `m` data pairs and the sync pair (R135, R140). -/
theorem accumulate_capture_iff {p : Protocol} {delay tol m v b : Nat} {cap : List Nat} (hl : cap.length = 2 * m + 2)
    (hm : m ≤ 32) :
    accumulate p delay tol (cap.take (cap.length - 2)) 0 0 = some (v, b) ↔
      b = m ∧ v < 2 ^ m ∧
      ∀ i < m,
        if v.testBit (m - 1 - i) then
          PairMatches (cap.getD (2 * i) 0) (cap.getD (2 * i + 1) 0) p.one p delay tol ∧
            ¬ PairMatches (cap.getD (2 * i) 0) (cap.getD (2 * i + 1) 0) p.zero p delay tol
        else PairMatches (cap.getD (2 * i) 0) (cap.getD (2 * i + 1) 0) p.zero p delay tol := by
  rw [show cap.length - 2 = 2 * m by omega,
    accumulate_zero_eq_some_iff (by rw [List.length_take]; omega) hm]
  refine and_congr_right fun _ => and_congr_right fun _ => forall₂_congr fun i hi => ?_
  rw [getD_take_of_lt (by omega), getD_take_of_lt (by omega), pairBit_eq_toNat_iff]

/-- Settles O32: the count tests fix the number of data pairs, the delay is the inferred one, and the entry loop reads the
value's digits from the pairs. -/
theorem matcherReadsEveryPair : Obligations.MatcherReadsEveryPair := by
  unfold Obligations.MatcherReadsEveryPair
  intro p cap tol v b d
  rw [tryProtocol_eq_some_iff, inferredDelay_eq_delayOf]
  constructor
  · rintro ⟨h7, h67, heven, hpos, rfl, hloop⟩
    have hlen : cap.length = 2 * ((cap.length - 2) / 2) + 2 := by omega
    obtain ⟨rfl, hv, hpairs⟩ := (accumulate_capture_iff hlen (by omega)).mp hloop
    exact ⟨h7, h67, hlen, rfl, hpos, hv, hpairs⟩
  · rintro ⟨h7, h67, hlen, rfl, hpos, hv, hpairs⟩
    exact ⟨h7, h67, by omega, hpos, rfl, (accumulate_capture_iff hlen (by omega)).mpr ⟨rfl, hv, hpairs⟩⟩

end Sys2Proof.Machine
end

section
/-! `DECODE` (R133, R134, R141 to R144): overflow, no match, or the publish of the match of lowest id. -/

namespace Sys2Proof.Machine

open Sys2Proof.Claims

/-- No attempt succeeds on fewer than 7 entries or on an odd number of them (R141, R142). -/
theorem tryProtocol_of_bad_count {n : Nat} (h : n < 7 ∨ n % 2 = 1) (p : Protocol) (cap : List Nat) (tol : Nat) :
    tryProtocol p cap n tol = none := by
  refine Option.eq_none_iff_forall_ne_some.mpr fun m hm => ?_
  obtain ⟨hmin, -, heven, -⟩ := tryProtocol_eq_some_iff.mp hm
  omega

/-- `DECODE` finds nothing exactly if no stored protocol's attempt matches (R144). -/
theorem decodeCapture_eq_none_iff {s : State} : decodeCapture s = none ↔ ∀ p ∈ s.proto, attempt s p = none :=
  firstMatch_eq_none_iff

/-- Where an attempt matches, the capture has a sync pair and fits the buffer, so `RAW` is its rotation (R141, R143). -/
theorem rotationOf_of_attempt {s : State} {p : Protocol} {m : Decoded} (h : attempt s p = some m) :
    RotationOf (rotate (captured s) s.capcnt.toNat) s := by
  obtain ⟨hmin, hmax, -⟩ := tryProtocol_eq_some_iff.mp h
  exact rotationOf_rotate (by omega) hmax

/-- Settles O30: the three outcomes of `DECODE`, and for the publish the record the loop stops at. -/
theorem decodePublishesFirstMatch : Obligations.DecodePublishesFirstMatch := by
  unfold Obligations.DecodePublishesFirstMatch
  refine ⟨formatZ_of_decodeFields fun _ => rfl, fun s hovf => execDecode_of_overflow hovf,
    fun s hovf hnone => execDecode_of_none hovf (decodeCapture_eq_none_iff.mpr hnone),
    fun s k p m hovf hp hm hfirst => ?publish⟩
  case publish =>
    exact ⟨_, execDecode_of_some hovf (decodeCapture_of_first hp hm hfirst), rotationOf_of_attempt hm⟩

/-- Settles O33: the count alone makes every attempt fail, so `DECODE` finds nothing. -/
theorem shortOrOddCaptureNeverDecodes : Obligations.ShortOrOddCaptureNeverDecodes := by
  unfold Obligations.ShortOrOddCaptureNeverDecodes
  intro s hovf hcount
  have hnone : decodeCapture s = none :=
    decodeCapture_eq_none_iff.mpr fun p _ => tryProtocol_of_bad_count hcount p _ _
  exact execDecode_of_none hovf hnone

end Sys2Proof.Machine
end

section
/-! The Holder commands and `GETCFG` (R170 to R178): what each responds, and its format. -/

namespace Sys2Proof.Machine

open Sys2Proof.Claims

/-! What the commands respond, in the words of the spec. -/

/-- A flag widened to the response is the number 1 or 0 (R170). -/
theorem ofBool_setWidth (b : Bool) : (BitVec.ofBool b).setWidth 72 = if b then 1 else 0 := by
  cases b <;> rfl

/-- An index in range reads that entry of `RAW` (R176). -/
theorem rawEntry_of_index {idx : Byte} {j : Fin 67} (h : idx.toNat = j.val) (s : State) :
    rawEntry s idx = s.raw[j] := by
  simp [rawEntry, h]

theorem exec_getraw_of_index {idx : Byte} {j : Fin 67} (h : idx.toNat = j.val) (s : State) :
    exec (.getraw idx) s = .next (respond (s.raw[j].setWidth 72) s) := by
  have hle : ¬ 66 < idx.toNat := by omega
  simp only [exec, execGetraw, if_neg hle, rawEntry_of_index h]

theorem exec_getraw_of_gt {idx : Byte} (h : 66 < idx.toNat) (s : State) :
    exec (.getraw idx) s = .next (raiseError .invalidArgument s) := by
  simp only [exec, execGetraw, if_pos h]

/-! The configuration word, field by field (R177). -/

/-- `REPEAT` stands in bits 7:0. -/
theorem cfgWord_repeatCnt (s : State) : (cfgWord s).extractLsb' 0 8 = s.repeatCnt :=
  BitVec.extractLsb'_append_eq_right

/-- `TOL` stands in bits 15:8. -/
theorem cfgWord_tol (s : State) : (cfgWord s).extractLsb' 8 8 = s.tol :=
  (extract_high _ s.repeatCnt 0 8).trans BitVec.extractLsb'_append_eq_right

/-- Above `TOL` stand the capture count and the bits over it. -/
theorem cfgWord_extract_above_tol (s : State) (lo len : Nat) :
    (cfgWord s).extractLsb' (16 + lo) len =
      (0#46 ++ BitVec.ofBool s.avail ++ BitVec.ofBool s.capovf ++ 0#1 ++ s.capcnt).extractLsb' lo len := by
  rw [show 16 + lo = 8 + (8 + lo) by omega]
  exact (extract_high _ s.repeatCnt (8 + lo) len).trans (extract_high _ s.tol lo len)

/-- `CAPCNT` stands in bits 22:16. -/
theorem cfgWord_capcnt (s : State) : (cfgWord s).extractLsb' 16 7 = s.capcnt :=
  (cfgWord_extract_above_tol s 0 7).trans BitVec.extractLsb'_append_eq_right

/-- The bits above `AVAIL` are zero. -/
theorem cfgWord_high (s : State) : (cfgWord s).extractLsb' 26 46 = 0 :=
  (cfgWord_extract_above_tol s 10 46).trans
    ((extract_high _ s.capcnt 3 46).trans
      ((extract_high _ (0#1) 2 46).trans
        ((extract_high _ (BitVec.ofBool s.capovf) 1 46).trans
          ((extract_high _ (BitVec.ofBool s.avail) 0 46).trans BitVec.extractLsb'_eq_self))))

/-- A single bit above the low part of a concatenation. -/
theorem getLsbD_append_add {v w : Nat} (a : BitVec v) (b : BitVec w) (i : Nat) :
    (a ++ b).getLsbD (w + i) = a.getLsbD i := by
  simp [BitVec.getLsbD_append]

/-- A flag at the low end of a concatenation. -/
theorem getLsbD_append_ofBool {v : Nat} (a : BitVec v) (b : Bool) : (a ++ BitVec.ofBool b).getLsbD 0 = b := by
  rw [BitVec.getLsbD_append]
  simp

/-- Above `CAPCNT` stand a zero bit, the two flags and zeros. -/
theorem cfgWord_bit_above_capcnt (s : State) (i : Nat) :
    (cfgWord s).getLsbD (23 + i) =
      (0#46 ++ BitVec.ofBool s.avail ++ BitVec.ofBool s.capovf ++ BitVec.ofBool false).getLsbD i := by
  rw [show 23 + i = 8 + (8 + (7 + i)) by omega]
  exact (getLsbD_append_add _ s.repeatCnt _).trans
    ((getLsbD_append_add _ s.tol _).trans (getLsbD_append_add _ s.capcnt i))

/-- Bit 23 is zero. -/
theorem cfgWord_bit_twentyThree (s : State) : (cfgWord s).getLsbD 23 = false :=
  (cfgWord_bit_above_capcnt s 0).trans (getLsbD_append_ofBool _ _)

/-- `CAPOVF` stands in bit 24. -/
theorem cfgWord_capovf (s : State) : (cfgWord s).getLsbD 24 = s.capovf :=
  (cfgWord_bit_above_capcnt s 1).trans ((getLsbD_append_add _ _ 0).trans (getLsbD_append_ofBool _ _))

/-- `AVAIL` stands in bit 25. -/
theorem cfgWord_avail (s : State) : (cfgWord s).getLsbD 25 = s.avail :=
  (cfgWord_bit_above_capcnt s 2).trans
    ((getLsbD_append_add _ _ 1).trans ((getLsbD_append_add _ _ 0).trans (getLsbD_append_ofBool _ _)))

/-! The statements. -/

/-- Settles O37: `AVAIL` only responds, with the flag as a number, and its payload is all reserved. -/
theorem availReportsFlag : Obligations.AvailReportsFlag := by
  unfold Obligations.AvailReportsFlag
  refine ⟨formatZ_of_decodeFields fun _ => rfl, fun s => ?_⟩
  rw [← ofBool_setWidth]
  rfl

/-- Settles O38: `RSTAVAIL` clears the flag and responds, and its payload is all reserved. -/
theorem rstavailClearsFlagOnly : Obligations.RstavailClearsFlagOnly := by
  unfold Obligations.RstavailClearsFlagOnly
  exact ⟨formatZ_of_decodeFields fun _ => rfl, fun _ => rfl⟩

/-- Settles O39: each accessor only responds, with its field widened to the response (`BitVec.ofNat_toNat`), and no
accessor looks at the flag. -/
theorem accessorsProjectHolder : Obligations.AccessorsProjectHolder := by
  unfold Obligations.AccessorsProjectHolder
  refine ⟨formatZ_of_decodeFields fun _ => rfl, formatZ_of_decodeFields fun _ => rfl,
    formatZ_of_decodeFields fun _ => rfl, formatZ_of_decodeFields fun _ => rfl, fun s => ?_⟩
  simp only [BitVec.ofNat_toNat]
  exact ⟨rfl, rfl, rfl, rfl⟩

/-- Settles O40: an index in range responds that entry of `RAW`, and any other raises. -/
theorem getrawReadsEntry : Obligations.GetrawReadsEntry := by
  unfold Obligations.GetrawReadsEntry
  refine ⟨formatB_of_decodeFields fun _ => rfl, fun s idx j h => ?inRange, fun s idx h => exec_getraw_of_gt h s⟩
  case inRange =>
    rw [BitVec.ofNat_toNat]
    exact exec_getraw_of_index h s

/-- Settles O41: `GETCFG` only responds, with the configuration word, whose fields stand where R177 puts them. -/
theorem getcfgReadsConfiguration : Obligations.GetcfgReadsConfiguration := by
  unfold Obligations.GetcfgReadsConfiguration
  exact ⟨formatZ_of_decodeFields fun _ => rfl, fun s => ⟨cfgWord s, rfl, cfgWord_repeatCnt s, cfgWord_tol s,
    cfgWord_capcnt s, cfgWord_bit_twentyThree s, cfgWord_capovf s, cfgWord_avail s, cfgWord_high s⟩⟩

end Sys2Proof.Machine
end

section
/-! The table of errors (R190, R198): the status a command answers with, in every state. -/

namespace Sys2Proof.Machine

open Sys2Proof.Claims

/-- The status on the response port after a command, if it answered. -/
def answeredStatus : Host.Outcome State Fault Refusal → Option Status
  | .next t => t.rsp.map Response.status
  | .fault _ | .refused _ => none

@[simp] theorem answeredStatus_respond (d : Payload) (s : State) : answeredStatus (.next (respond d s)) = some .ok := rfl

@[simp] theorem answeredStatus_raiseError (e : Status) (s : State) :
    answeredStatus (.next (raiseError e s)) = some e := rfl

@[simp] theorem answeredStatus_encodeWord_some (bits : List Bool) (s : State) :
    answeredStatus (.next (encodeWord (some bits) s)) = some .ok := rfl

/-- A row of the table: under its condition the command answers `e`, and else `e'`. -/
theorem answeredStatus_ite {o : Host.Outcome State Fault Refusal} {e e' : Status} {bad : Prop} [Decidable bad]
    (hbad : bad → answeredStatus o = some e) (hgood : ¬ bad → answeredStatus o = some e') :
    answeredStatus o = some (if bad then e else e') := by
  split
  · next h => exact hbad h
  · next h => exact hgood h

/-- An id that is not out of range has a record (R90). -/
theorem exists_protocolAt {s : State} {id : Byte} (h : ¬ (id.toNat = 0 ∨ s.proto.length < id.toNat)) :
    ∃ p, protocolAt s id = some p :=
  Option.ne_none_iff_exists'.mp (mt protocolAt_eq_none_iff.mp h)

/-! The commands that can raise, one row of the table each. -/

theorem answeredStatus_protoat (id : Byte) (s : State) :
    answeredStatus (exec (.protoat id) s) = some (tabledStatus (.protoat id) s) := by
  refine answeredStatus_ite (fun h => ?_) (fun h => ?_)
  · rw [exec_protoat_of_none (protocolAt_eq_none_iff.mpr h), answeredStatus_raiseError]
  · obtain ⟨p, hp⟩ := exists_protocolAt h
    rw [exec_protoat_of_stored hp, answeredStatus_respond]

theorem answeredStatus_setproto (id : Byte) (s : State) :
    answeredStatus (exec (.setproto id) s) = some (tabledStatus (.setproto id) s) := by
  refine answeredStatus_ite (fun h => ?_) (fun h => ?_)
  · rw [exec_setproto_of_none (protocolAt_eq_none_iff.mpr h), answeredStatus_raiseError]
  · obtain ⟨p, hp⟩ := exists_protocolAt h
    rw [exec_setproto_of_stored hp, answeredStatus_respond]

/-- The reserved bits are tested before the fields (R198). -/
theorem answeredStatus_setprotof (prec : Payload) (s : State) :
    answeredStatus (exec (.setprotof prec) s) = some (tabledStatus (.setprotof prec) s) := by
  refine answeredStatus_ite (fun hres => ?reserved) (fun hclear => answeredStatus_ite (fun h => ?valid) (fun h => ?invalid))
  case reserved => rw [exec_setprotof_of_reserved hres, answeredStatus_raiseError]
  case valid => rw [exec_setprotof_of_clear (not_not.mp hclear), if_pos h, answeredStatus_respond]
  case invalid => rw [exec_setprotof_of_clear (not_not.mp hclear), if_neg h, answeredStatus_raiseError]

theorem answeredStatus_setpulse (pl16 : BitVec 16) (s : State) :
    answeredStatus (exec (.setpulse pl16) s) = some (tabledStatus (.setpulse pl16) s) := by
  refine answeredStatus_ite (fun h => ?_) (fun h => ?_)
  · rw [h, exec_setpulse_zero, answeredStatus_raiseError]
  · rw [exec_setpulse_of_ne_zero h, answeredStatus_respond]

theorem answeredStatus_setrep (r : Byte) (s : State) :
    answeredStatus (exec (.setrep r) s) = some (tabledStatus (.setrep r) s) := by
  refine answeredStatus_ite (fun h => ?_) (fun h => ?_)
  · rw [h]; rfl
  · rw [exec_setrep_of_ne_zero h, answeredStatus_respond]

theorem answeredStatus_enct (nsym : Byte) (slots : BitVec 64) (s : State) :
    answeredStatus (exec (.enct nsym slots) s) = some (tabledStatus (.enct nsym slots) s) := by
  rw [exec_enct]
  refine answeredStatus_ite (fun h => ?_) (fun h => ?_)
  · rw [enctBits_of_badWord h, encodeWord_none, answeredStatus_raiseError]
  · rw [enctBits_eq_some_iff_wordBits.mpr ⟨h, rfl⟩, answeredStatus_encodeWord_some]

theorem answeredStatus_encb (len : Byte) (code : BitVec 32) (s : State) :
    answeredStatus (exec (.encb len code) s) = some (tabledStatus (.encb len code) s) := by
  rw [exec_encb]
  refine answeredStatus_ite (fun h => ?_) (fun h => ?_)
  · rw [encbBits_of_bad_length h, encodeWord_none, answeredStatus_raiseError]
  · rw [encbBits_eq_some_iff.mpr ⟨by omega, by omega, rfl⟩, answeredStatus_encodeWord_some]

theorem answeredStatus_settol (x : Byte) (s : State) :
    answeredStatus (exec (.settol x) s) = some (tabledStatus (.settol x) s) := by
  refine answeredStatus_ite (fun h => ?_) (fun h => ?_)
  · rw [exec_settol_of_gt h, answeredStatus_raiseError]
  · rw [exec_settol_of_le (Nat.le_of_not_lt h), answeredStatus_respond]

theorem answeredStatus_cappush (d : Duration) (s : State) :
    answeredStatus (exec (.cappush d) s) = some (tabledStatus (.cappush d) s) :=
  answeredStatus_ite (fun h => congrArg answeredStatus (execCappush_of_full d h))
    (fun h => congrArg answeredStatus (execCappush_of_room d h))

theorem answeredStatus_decode (s : State) : answeredStatus (exec .decode s) = some (tabledStatus .decode s) := by
  refine answeredStatus_ite (fun h => congrArg answeredStatus (execDecode_of_overflow h)) (fun h => ?_)
  have hovf : s.capovf = false := Bool.eq_false_iff.mpr h
  cases hd : decodeCapture s with
  | none => exact congrArg answeredStatus (execDecode_of_none hovf hd)
  | some r => exact congrArg answeredStatus (execDecode_of_some hovf hd)

theorem answeredStatus_getraw (idx : Byte) (s : State) :
    answeredStatus (exec (.getraw idx) s) = some (tabledStatus (.getraw idx) s) := by
  refine answeredStatus_ite (fun h => ?_) (fun h => ?_)
  · rw [exec_getraw_of_gt h, answeredStatus_raiseError]
  · rw [exec_getraw_of_index (j := ⟨idx.toNat, by omega⟩) rfl, answeredStatus_respond]

/-- Every command answers as the table says; those not among the rows above respond in every state. -/
theorem answeredStatus_exec (i : Instr) (s : State) : answeredStatus (exec i s) = some (tabledStatus i s) := by
  cases i with
  | protoat id => exact answeredStatus_protoat id s
  | setproto id => exact answeredStatus_setproto id s
  | setprotof prec => exact answeredStatus_setprotof prec s
  | setpulse pl16 => exact answeredStatus_setpulse pl16 s
  | setrep r => exact answeredStatus_setrep r s
  | enct nsym slots => exact answeredStatus_enct nsym slots s
  | encb len code => exact answeredStatus_encb len code s
  | settol x => exact answeredStatus_settol x s
  | cappush d => exact answeredStatus_cappush d s
  | decode => exact answeredStatus_decode s
  | getraw idx => exact answeredStatus_getraw idx s
  | nop | getcur | capclr | avail | rstavail | getval | getlen | getdly | getproto | getcfg => rfl

/-- Settles O42: the status of the answer, row by row of the table. -/
theorem statusAsTabled : Obligations.StatusAsTabled := by
  unfold Obligations.StatusAsTabled
  intro i s t h
  have hrow := answeredStatus_exec i s
  rw [h] at hrow
  exact hrow

end Sys2Proof.Machine
end

section
/-! What an error leaves (R197, R199), and an idle step (R205). -/

namespace Sys2Proof.Machine

open Sys2Proof.Claims

/-- Of the effects a command can have, two answer with an error: the plain one, and the overflow of a full buffer. -/
theorem Effect.of_error {i : Instr} {s t : State} {e : Status} {d : Payload} (h : Effect i s t)
    (hrsp : t.rsp = some { status := e, data := d }) (he : e ≠ .ok) :
    d = 0 ∧ (t = raiseError e s ∨
      ((∃ x, i = .cappush x) ∧ s.capcnt.toNat = 67 ∧ e = .captureOverflow ∧ t = raiseError e (setCapovf s))) := by
  cases h with
  | error e' =>
    cases hrsp
    exact ⟨rfl, .inl rfl⟩
  | overflow x hi hfull =>
    cases hrsp
    exact ⟨rfl, .inr ⟨⟨x, hi⟩, hfull, rfl, rfl⟩⟩
  | answer | stream | current | repeats | tolerance | clear | push | publish | clearAvail =>
    cases hrsp
    exact absurd rfl he

/-- Settles O43: by the effect the command had. -/
theorem errorsHaveNoPartialEffect : Obligations.ErrorsHaveNoPartialEffect := by
  unfold Obligations.ErrorsHaveNoPartialEffect
  intro i s t e d h hrsp he
  exact (effect_of_exec h).of_error hrsp he

/-- Settles O54: with no event pending a step is `idle`, which clears the ports alone. -/
theorem idleBlockHoldsState : Obligations.IdleBlockHoldsState := by
  unfold Obligations.IdleBlockHoldsState
  exact fun s hin => takeInput_nil hin

end Sys2Proof.Machine
end

section
/-! What a reset leaves, on its own (R221, R222) and during a command (R220). -/

namespace Sys2Proof.Machine

open Sys2Proof.Claims

/-- A reset leaves the registers as those of any block after reset; what stays of the state is no register (R221). -/
theorem resetValues_resetBlock (s : State) : ResetValues s.proto (resetBlock s) :=
  { resetValues_resetWith s.proto with }

/-- A reset during a command differs from a plain one in the stream and the count of free values alone (R220). -/
theorem resetValues_abandon (full : List TxBeat) (s : State) : ResetValues s.proto (abandon full s) :=
  { resetValues_resetBlock s with }

/-- Settles O52: the reset is taken as `resetBlock`, which leaves the ports idle. -/
theorem resetInputRestoresReset : Obligations.ResetInputRestoresReset := by
  unfold Obligations.ResetInputRestoresReset
  intro s rest hin
  exact ⟨_, takeInput_reset hin, resetValues_resetBlock (withInputs rest s), rfl, rfl, rfl⟩

/-! The stream of a command, whole and cut short (R76, R220). -/

/-- Every effect ends in a response, so the ports after a command are legal whatever the state before it (R75, R76). -/
theorem legalPorts_of_effect {i : Instr} {s t : State} (h : Effect i s t) : LegalPorts t := by
  cases h with
  | error | overflow => exact legalPorts_raiseError _ _
  | stream => exact legalPorts_respondTx _ _
  | answer | current | repeats | tolerance | clear | push | publish | clearAvail => exact legalPorts_respond _ _

theorem legalPorts_of_runWord {w : CmdWord} {s t : State} (h : runWord w s = .next t) : LegalPorts t := by
  cases hd : decode w with
  | ok i => exact legalPorts_of_effect (effect_of_exec ((runWord_of_ok s hd).symm.trans h))
  | error e =>
    cases (runWord_of_error s hd).symm.trans h
    exact legalPorts_raiseError _ _

/-- The last beat of a stream ends it, so none of the beats kept by a reset is the last (R220). -/
theorem abandonedTx_last {u : State} (hu : LegalPorts u) (n : Nat) {b : TxBeat} (hb : b ∈ abandonedTx u.tx n) :
    b.last = false := by
  obtain ⟨m, hcut, hm⟩ := abandonedTx_prefix u.tx n
  rw [hcut] at hb
  obtain ⟨k, hk, rfl⟩ := List.mem_take_iff_getElem.mp hb
  refine Bool.eq_false_iff.mpr fun hlast => ?_
  have hend : k + 1 = u.tx.length := hu.lastBeat k (by omega) hlast
  rcases hm with hnil | hlt
  · simp [hnil] at hend
  · omega

/-- Settles O53: the block runs the word as it would without the reset, and keeps a proper prefix of its stream. -/
theorem abandonedCommandLeavesReset : Obligations.AbandonedCommandLeavesReset := by
  unfold Obligations.AbandonedCommandLeavesReset
  intro s t0 w rest hin hwhole
  have hrun : runWord w (withInputs rest s) = .next t0 := hwhole
  obtain ⟨n, hcut, -⟩ := abandonedTx_prefix t0.tx (Config.freePrefix s.freeCtr)
  refine ⟨abandon t0.tx (withInputs rest s), n, ?_, resetValues_abandon _ (withInputs rest s), rfl, rfl, hcut, fun b hb => ?_⟩
  · rw [step, takeInput_resetDuring hin, runAbandoned_of_next hrun]
  · exact abandonedTx_last (legalPorts_of_runWord hrun) _ hb

end Sys2Proof.Machine
end

section
/-! A `SETPULSE` before a selection is lost: both selections replace the whole of `CURP` (R229). -/

namespace Sys2Proof.Machine

/-- `t` differs from `s` in `CURP` and at the ports only. -/
def OnlyCurpChanged (s t : State) : Prop :=
  t = { s with curp := t.curp, rsp := t.rsp, tx := t.tx }

/-- `SETPULSE` writes `CURP` or raises (R95). -/
theorem onlyCurpChanged_of_setpulse {pl16 : BitVec 16} {s t : State} (h : exec (.setpulse pl16) s = .next t) :
    OnlyCurpChanged s t := by
  by_cases h0 : pl16 = 0
  · subst h0
    cases (exec_setpulse_zero s).symm.trans h
    rfl
  · cases (exec_setpulse_of_ne_zero h0 s).symm.trans h
    rfl

theorem OnlyCurpChanged.proto {s t : State} (h : OnlyCurpChanged s t) : t.proto = s.proto := by
  unfold OnlyCurpChanged at h
  rw [h]

/-- A selection forgets the `CURP` before it, the pulse length included. -/
theorem OnlyCurpChanged.respond_setCurp {s t : State} (h : OnlyCurpChanged s t) (d : Payload) (p : Protocol) :
    respond d (setCurp p t) = respond d (setCurp p s) := by
  unfold OnlyCurpChanged at h
  rw [h]
  rfl

/-- Settles O18: after `SETPULSE` the table is the same, and each selection overwrites what `SETPULSE` wrote. -/
theorem selectionDropsPulseOverride : Obligations.SelectionDropsPulseOverride := by
  unfold Obligations.SelectionDropsPulseOverride
  intro s t pl16 h
  have hst := onlyCurpChanged_of_setpulse h
  refine ⟨fun id p hid hp => ?setproto, fun prec hclear hvalid => ?setprotof⟩
  case setproto =>
    have hp' : t.proto[id.toNat - 1]? = some p := by rwa [hst.proto]
    rw [exec_setproto_of_stored (protocolAt_of_stored hid hp), exec_setproto_of_stored (protocolAt_of_stored hid hp'),
      hst.respond_setCurp]
  case setprotof =>
    rw [exec_setprotof_of_clear hclear, exec_setprotof_of_clear hclear, if_pos hvalid, if_pos hvalid,
      hst.respond_setCurp]

end Sys2Proof.Machine
end
